-- ==== Sys2Proof/Word.lean ====
section
/-! DEFINITION. The one data type of the hardware: the 8-bit word (spec 00_scope.md R9, R12). -/

namespace Sys2Proof

/-- A *word*: an unsigned integer in 0..255, the width of a register, of a memory cell and of every
part of an instruction (R9, R12; bit 7 is the most significant). -/
abbrev Word := BitVec 8

end Sys2Proof
end

