-- ==== Sys2Proof/Config.lean ====
section
/-! DEFINITION. What an implementation of the hardware fixes: the constants of 00_scope.md R7, the shape of the
build parameters of R8 (their default values stand in Decode.lean), the fatal conditions by name (60_exceptions.md
R190) and the one free value, which depends on them. -/

namespace Sys2Proof

/-- `MEM_SIZE` (R7): the number of memory cells. -/
def Config.memSize : Nat := 256
/-- `NUM_REGS` (R7): the number of registers. -/
def Config.numRegs : Nat := 8
/-- `SP_INDEX` (R7): the register that is the stack pointer. -/
def Config.spIndex : Fin 8 := 7
/-- `SP_RESET` (R7): the reset value of the stack pointer and the sentinel of the empty stack. -/
def Config.spReset : Word := 0xF4
/-- `PC_RESET` (R7). -/
def Config.pcReset : Nat := 0
/-- `LOAD_BASE` (R7). -/
def Config.loadBase : Nat := 0

/-- The mnemonics of the opcode map (R76), with SUB and the two optional jumps of R79. -/
inductive Op where
  | hlt | ret | push | pop | prn | call | jmp | jeq | jne | ldi | add | sub | mul | cmp | jgt | jlt
  deriving DecidableEq, Repr

/-- The four instruction formats (R71): no operand, one register, two registers, register and immediate. -/
inductive Format where
  | z | r | rr | ri
  deriving DecidableEq, Repr

/-- The parameter `OPMAP` (R8, R76): the opcode byte of each mnemonic. -/
structure OpMap where
  hlt : Word
  ret : Word
  push : Word
  pop : Word
  prn : Word
  call : Word
  jmp : Word
  jeq : Word
  jne : Word
  ldi : Word
  add : Word
  sub : Word
  mul : Word
  cmp : Word
  jgt : Word
  jlt : Word
  deriving DecidableEq, Repr

/-- The build parameters of R8 that change which opcodes exist: `OPMAP`, `HAS_SUB`, `EXT_JGT_JLT`.
Assumption log 1. -/
structure Params where
  opmap : OpMap
  hasSub : Bool
  extJgtJlt : Bool
  deriving DecidableEq, Repr

/-! ## The fatal conditions, and what an implementation reports for them -/

/-- The array an out-of-range index was applied to (R192). -/
inductive Machine.Space where
  | mem
  | reg
  deriving DecidableEq, Repr

/-- The three fatal conditions with the information they record (R190); `pc` is the address of the instruction. -/
inductive Machine.Cause where
  /-- The word fetched at `pc` is not a defined opcode (R191). -/
  | decodeError (opcode : Word) (pc : Nat)
  /-- An index outside the array it indexes (R192). -/
  | outOfBounds (space : Machine.Space) (index : Nat) (pc : Nat)
  /-- The ALU was asked for an operation it does not have (R193); no program can raise it (R132). -/
  | unsupportedOperation (op : String) (pc : Nat)
  deriving DecidableEq, Repr

/-- What the wrapper reports for a fatal stop, less one: the spec fixes only that the status is not zero, the same or
different per cause (R247, D21, U7), so nothing is known of this number. Free value, assumption log 8. -/
opaque Config.fatalExitStatusLessOne : Machine.Cause → Nat

end Sys2Proof
end

