-- ==== Sys2Proof/Syntax.lean ====
section
/-! DEFINITION. The instructions: one constructor per row of spec/opcode_table.json (30_encoding.md R71, R76, R79).
A register operand is the whole operand word: 8..255 can be written in an image, and raises a condition (R74). -/

namespace Sys2Proof

/-- An instruction with its operand words, in the order of the table's column "operands" (R71). -/
inductive Instr where
  /-- `HLT` (R180). -/
  | hlt
  /-- `RET` (R161). -/
  | ret
  /-- `PUSH r` (R152). -/
  | push (r : Word)
  /-- `POP r` (R153). -/
  | pop (r : Word)
  /-- `PRN r` (R121). -/
  | prn (r : Word)
  /-- `CALL r` (R160). -/
  | call (r : Word)
  /-- `JMP r` (R162). -/
  | jmp (r : Word)
  /-- `JEQ r` (R163). -/
  | jeq (r : Word)
  /-- `JNE r` (R164). -/
  | jne (r : Word)
  /-- `LDI r, imm` (R120). -/
  | ldi (r imm : Word)
  /-- `ADD a, b` (R134). -/
  | add (a b : Word)
  /-- `SUB a, b` (R135), present when `HAS_SUB`. -/
  | sub (a b : Word)
  /-- `MUL a, b` (R136). -/
  | mul (a b : Word)
  /-- `CMP a, b` (R137). -/
  | cmp (a b : Word)
  /-- `JGT r` (R166), present when `EXT_JGT_JLT`. -/
  | jgt (r : Word)
  /-- `JLT r` (R167), present when `EXT_JGT_JLT`. -/
  | jlt (r : Word)
  deriving DecidableEq, Repr

end Sys2Proof
end

