-- ==== Sys2Proof/WellFormed.lean ====
section
/-! DEFINITION. When an instruction is well formed: every operand word that its format uses as a register index
names a register (30_encoding.md R74). An immediate is never checked (R75). -/

namespace Sys2Proof

/-- The operand words that the format uses as register indices, first operand first (R71, R105). -/
def Instr.regOperands : Instr → List Word
  | .hlt => []
  | .ret => []
  | .push r => [r]
  | .pop r => [r]
  | .prn r => [r]
  | .call r => [r]
  | .jmp r => [r]
  | .jeq r => [r]
  | .jne r => [r]
  | .ldi r _ => [r]
  | .add a b => [a, b]
  | .sub a b => [a, b]
  | .mul a b => [a, b]
  | .cmp a b => [a, b]
  | .jgt r => [r]
  | .jlt r => [r]

/-- Every register operand is one of 0..7. -/
def Instr.wellFormed (i : Instr) : Bool :=
  i.regOperands.all fun w => decide (w.toNat < Config.numRegs)

end Sys2Proof
end

