-- ==== Sys2Proof/Decode.lean ====
section
/-! DEFINITION. The decoder and the encoder (30_encoding.md R70 to R79), and the default values of the build
parameters (00_scope.md R8). Everything here is read from the one table of R76. -/

namespace Sys2Proof

/-- The default `OPMAP`: the byte column of the table of R76, and of R79 for JGT and JLT. -/
def OpMap.ls8 : OpMap where
  hlt := 0b00000001
  ret := 0b00010001
  push := 0b01000101
  pop := 0b01000110
  prn := 0b01000111
  call := 0b01010000
  jmp := 0b01010100
  jeq := 0b01010101
  jne := 0b01010110
  ldi := 0b10000010
  add := 0b10100000
  sub := 0b10100001
  mul := 0b10100010
  cmp := 0b10100111
  jgt := 0b01010111
  jlt := 0b01011000

/-- The default parameters (R8): the LS-8 map, SUB present, JGT and JLT absent. -/
def Params.default : Params where
  opmap := OpMap.ls8
  hasSub := true
  extJgtJlt := false

/-- Every row of the opcode table present: `EXT_JGT_JLT` on as well (R79). -/
def Params.allRows : Params := { Params.default with extJgtJlt := true }

/-- The mnemonics, in the order of the opcode table. -/
def Op.all : List Op :=
  [.hlt, .ret, .push, .pop, .prn, .call, .jmp, .jeq, .jne, .ldi, .add, .sub, .mul, .cmp, .jgt, .jlt]

/-- The table's column "format" (R71, R76). -/
def Op.format : Op → Format
  | .hlt | .ret => .z
  | .push | .pop | .prn | .call | .jmp | .jeq | .jne | .jgt | .jlt => .r
  | .add | .sub | .mul | .cmp => .rr
  | .ldi => .ri

/-- The operand count of a format (R71). -/
def Format.operands : Format → Nat
  | .z => 0
  | .r => 1
  | .rr => 2
  | .ri => 2

/-- The operand count of a mnemonic (R76). -/
def Op.operands (o : Op) : Nat := o.format.operands

/-- The instruction width in words: 1 + operand count (R70). -/
def Op.width (o : Op) : Nat := 1 + o.operands

/-- The opcode byte a map gives a mnemonic. -/
def OpMap.byte (m : OpMap) : Op → Word
  | .hlt => m.hlt
  | .ret => m.ret
  | .push => m.push
  | .pop => m.pop
  | .prn => m.prn
  | .call => m.call
  | .jmp => m.jmp
  | .jeq => m.jeq
  | .jne => m.jne
  | .ldi => m.ldi
  | .add => m.add
  | .sub => m.sub
  | .mul => m.mul
  | .cmp => m.cmp
  | .jgt => m.jgt
  | .jlt => m.jlt

/-- Which mnemonics exist: SUB only with `HAS_SUB`, JGT and JLT only with `EXT_JGT_JLT` (R79). -/
def Params.present (p : Params) : Op → Bool
  | .sub => p.hasSub
  | .jgt | .jlt => p.extJgtJlt
  | _ => true

/-- The two constraints R76 puts on an opcode map: distinct bytes for distinct instructions (that exist), and
the operand count recoverable from the opcode's high bits, as bits 7:6 (R73). -/
def Params.legal (p : Params) : Bool :=
  Op.all.all fun o => !p.present o ||
    (decide ((p.opmap.byte o).toNat / 64 = o.operands) &&
      Op.all.all fun o' => !p.present o' || o == o' || p.opmap.byte o != p.opmap.byte o')

/-- R77: the entry of the opcode map whose opcode is `b`, by exact match of the whole byte. -/
def decodeOpcode (p : Params) (b : Word) : Option Op :=
  Op.all.find? fun o => p.present o && p.opmap.byte o == b

/-- The instruction of a mnemonic with its operand words; a format takes the words it has (R71). -/
def Op.instr (a b : Word) : Op → Instr
  | .hlt => .hlt
  | .ret => .ret
  | .push => .push a
  | .pop => .pop a
  | .prn => .prn a
  | .call => .call a
  | .jmp => .jmp a
  | .jeq => .jeq a
  | .jne => .jne a
  | .ldi => .ldi a b
  | .add => .add a b
  | .sub => .sub a b
  | .mul => .mul a b
  | .cmp => .cmp a b
  | .jgt => .jgt a
  | .jlt => .jlt a

/-- Phase 3 of R102: exactly as many operand words as the count says are read, the one at offset 1 first (R104).
An operand the format has not is given as 0 and is used by no `Op.instr`. -/
def fetchOperands {ε : Type} (read : Nat → Except ε Word) : Nat → Except ε (Word × Word)
  | 0 => .ok (0, 0)
  | 1 =>
    match read 1 with
    | .error e => .error e
    | .ok a => .ok (a, 0)
  | _ =>
    match read 1 with
    | .error e => .error e
    | .ok a =>
      match read 2 with
      | .error e => .error e
      | .ok b => .ok (a, b)

/-- Phases 1 to 3 of R102 over any source of words: `read k` is the word `k` places after the opcode's,
`unknown b` what an undefined opcode byte raises. Step reads memory, the decoder below reads a list. -/
def decodeFrom {ε : Type} (p : Params) (read : Nat → Except ε Word) (unknown : Word → ε) : Except ε Instr :=
  match read 0 with
  | .error e => .error e
  | .ok b =>
    match decodeOpcode p b with
    | none => .error (unknown b)
    | some o =>
      match fetchOperands read o.operands with
      | .error e => .error e
      | .ok (x, y) => .ok (o.instr x y)

/-- Why a list of words is no instruction. -/
inductive DecodeReject where
  /-- The first word is not a defined opcode (R78). -/
  | unknownOpcode (b : Word)
  /-- The list ends before the word at this offset. -/
  | truncated (offset : Nat)
  deriving DecidableEq, Repr

/-- The word at an offset of a list, or the rejection that says the list is too short. -/
def wordAt (ws : List Word) (k : Nat) : Except DecodeReject Word :=
  match ws[k]? with
  | some w => .ok w
  | none => .error (.truncated k)

/-- The mnemonic of an instruction. -/
def Instr.op : Instr → Op
  | .hlt => .hlt
  | .ret => .ret
  | .push _ => .push
  | .pop _ => .pop
  | .prn _ => .prn
  | .call _ => .call
  | .jmp _ => .jmp
  | .jeq _ => .jeq
  | .jne _ => .jne
  | .ldi _ _ => .ldi
  | .add _ _ => .add
  | .sub _ _ => .sub
  | .mul _ _ => .mul
  | .cmp _ _ => .cmp
  | .jgt _ => .jgt
  | .jlt _ => .jlt

/-- The decoder: the instruction at the head of a list of words, and the words after it. -/
def decode (p : Params) (ws : List Word) : Except DecodeReject (Instr × List Word) :=
  match decodeFrom p (wordAt ws) .unknownOpcode with
  | .error e => .error e
  | .ok i => .ok (i, ws.drop i.op.width)

/-- The operand words of an instruction, in ascending address order (R56, R71). -/
def Instr.operandWords : Instr → List Word
  | .hlt => []
  | .ret => []
  | .push r => [r]
  | .pop r => [r]
  | .prn r => [r]
  | .call r => [r]
  | .jmp r => [r]
  | .jeq r => [r]
  | .jne r => [r]
  | .ldi r imm => [r, imm]
  | .add a b => [a, b]
  | .sub a b => [a, b]
  | .mul a b => [a, b]
  | .cmp a b => [a, b]
  | .jgt r => [r]
  | .jlt r => [r]

/-- The encoder: the opcode word, then the operand words (R70, R71). -/
def encode (p : Params) (i : Instr) : List Word :=
  p.opmap.byte i.op :: i.operandWords

/-- The parameters with the row of opcode `b` present (R79): what a fetch of SUB, JGT or JLT needs. -/
def Params.withRow (p : Params) (b : Word) : Params :=
  { p with
    hasSub := p.hasSub || b == p.opmap.sub
    extJgtJlt := p.extJgtJlt || b == p.opmap.jgt || b == p.opmap.jlt }

/-- The three words of a table word: the first in bits 7:0, the next in bits 15:8, the last in bits 23:16 (the
words of an instruction stand at ascending addresses, R56); every bit from `nbits` on is 0. -/
def tableWords (nbits w : Nat) : List Word :=
  let v := w % 2 ^ nbits
  [BitVec.ofNat 8 v, BitVec.ofNat 8 (v / 256), BitVec.ofNat 8 (v / 65536)]

/-- The instruction the decoder reads from a word of the opcode table, with every row of the table present: the
rows SUB, JGT and JLT carry a `present_if`, and the table is read here with each of them true. -/
def decodeTableWord (nbits w : Nat) : Option Instr :=
  match decode Params.allRows (tableWords nbits w) with
  | .ok (i, _) => some i
  | .error _ => none

end Sys2Proof
end

