-- ==== Sys2Proof/Machine/State.lean ====
section
/-! DEFINITION. The machine's state as plain data (10_state.md R20 to R38), its conditions and output events
(R30, R32, 60_exceptions.md R190), the reasons a step can stop, and the state after reset (R38). -/

namespace Sys2Proof.Machine

/-- Memory: the cells that differ from what an unlisted address reads as, addresses rising (see `Memory.wf`). -/
abbrev Memory := List Host.Cell

/-- The flag latch `FL` (R27): equal, less-than, greater-than. -/
structure Flags where
  e : Bool
  l : Bool
  g : Bool
  deriving DecidableEq, Repr

/-- The run state (R30). -/
inductive RunState where
  | running
  | halted
  | fatal (c : Cause)
  deriving DecidableEq, Repr

/-- A diagnostic (R32): the benign condition, or the fatal one that stopped the machine. -/
inductive Diag where
  | emptyStackPop (pc : Nat)
  | fatal (c : Cause)
  deriving DecidableEq, Repr

/-- An output event (R32). -/
inductive Event where
  | print (v : Word)
  | diag (d : Diag)
  deriving DecidableEq, Repr

/-- The architectural state: the components of R20, and `params`, the build parameters the machine was made
with, which no step changes (assumption log 1). -/
structure State where
  /-- `mem[0..255]` (R36). -/
  mem : Memory
  /-- `x[0]`..`x[7]`; `x[7]` is SP (R21, R22). -/
  regs : Vector Word 8
  /-- The program counter, 0..256 (R24). -/
  pc : Nat
  /-- The flag latch (R27). -/
  fl : Flags
  /-- The run state (R30). -/
  run : RunState
  /-- The output log, oldest event first (R32). -/
  out : List Event
  /-- The build parameters (R8). -/
  params : Params
  deriving DecidableEq, Repr

/-- Why there is no next state. Raised by `step` alone: no instruction ends in a fault. -/
inductive Fault where
  /-- The machine is `Halted` and takes no step (R31, R100, D25). Raised by `step`; safe: the spec gives no step. -/
  | halted
  /-- The machine stopped with a fatal condition and takes no step (R31, R100, R197, D25). Raised by `step`;
  safe: the spec gives no step. -/
  | stopped (c : Cause)
  deriving DecidableEq, Repr

/-- Why an instruction has no meaning. No arm of `exec` answers it. -/
inductive Refusal where
  /-- The instruction has no meaning yet. Raised by an arm of `exec` that has none; safe. -/
  | notModelled (mnemonic : String)
  deriving DecidableEq, Repr

/-- The outcome of a step of this machine. -/
abbrev Outcome := Host.Outcome State Fault Refusal

/-- VM construction (R220) with given parameters: `gpr` is `GPR_RESET` and `fl` is `FL_RESET` of R8. -/
def State.construct (p : Params) (gpr : Word) (fl : Flags) : State where
  mem := []
  regs := #v[gpr, gpr, gpr, gpr, gpr, gpr, gpr, Config.spReset]
  pc := Config.pcReset
  fl := fl
  run := .running
  out := []
  params := p

/-- The state after reset (R38), with the default parameters of R8: memory all zero, x[0..6] = 0x00 (D8),
SP = 0xF4, pc = 0, FL = 0b000 (D9), Running, nothing printed. -/
def State.reset : State := State.construct Params.default 0x00 ⟨false, false, false⟩

end Sys2Proof.Machine
end

