-- ==== Sys2Proof/Machine/Flags.lean ====
section
/-! DEFINITION. The flag computations (10_state.md R27 to R29, 42_alu.md R137, R138). -/

namespace Sys2Proof.Machine

/-- The flags CMP writes (R137): unsigned comparison (R133), exactly one bit set. -/
def Flags.compare (x y : Word) : Flags :=
  if x.toNat > y.toNat then ⟨false, false, true⟩
  else if x.toNat < y.toNat then ⟨false, true, false⟩
  else ⟨true, false, false⟩

/-- `FL` as a byte, `0b00000LGE` (R27): E is bit 0, G bit 1, L bit 2. No instruction reads it. -/
def Flags.toByte (f : Flags) : Word :=
  BitVec.ofNat 8 (f.e.toNat + 2 * f.g.toNat + 4 * f.l.toNat)

/-- At most one bit is set: the values 0b000, 0b001, 0b010, 0b100 of R29. -/
def Flags.atMostOne (f : Flags) : Bool :=
  decide (f.e.toNat + f.l.toNat + f.g.toNat ≤ 1)

/-- Exactly one bit is set, as after any CMP (R29, R137). -/
def Flags.exactlyOne (f : Flags) : Bool :=
  decide (f.e.toNat + f.l.toNat + f.g.toNat = 1)

end Sys2Proof.Machine
end

