-- ==== Sys2Proof/Machine/Operands.lean ====
section
/-! DEFINITION. The operand forms: the register operand, checked against 0..7 (30_encoding.md R74,
40_dispatcher.md R105). The immediate of LDI is the whole operand word and needs no form of its own (R75). -/

namespace Sys2Proof.Machine

/-- Phase 4 of R102: the register an operand word names, or `OutOfBounds(reg, value)`; the word is not masked. -/
def State.regOperand (s : State) (w : Word) : Except Cause (Fin 8) :=
  if h : w.toNat < 8 then .ok ⟨w.toNat, h⟩ else .error (.outOfBounds .reg w.toNat s.pc)

end Sys2Proof.Machine
end

