-- ==== Sys2Proof/Machine/Ops.lean ====
section
/-! DEFINITION. The shared operations: memory (20_memory.md), registers (10_state.md), the program counter, the
output log, taking a fatal condition (60_exceptions.md R196), the stack primitives (43_stack.md R151), the load
(70_reset_and_hazards.md R222), and what the host observes (80_interfaces.md). -/

namespace Sys2Proof.Machine

/-! ## Memory -/

/-- What an address that is not listed reads as: memory is zero-initialized (R36, R38). -/
def Memory.unlisted : Word := 0x00

/-- The canonical form: addresses strictly rising and inside the array, no cell listed that reads as unlisted. -/
abbrev Memory.wf (m : Memory) : Prop :=
  m.Pairwise (fun c d => c.1 < d.1) ∧ ∀ c ∈ m, c.2 ≠ Memory.unlisted ∧ c.1 < 256

/-- The word at an address. -/
def Memory.read : Memory → Nat → Word
  | [], _ => Memory.unlisted
  | (k, v) :: m, a => if k = a then v else Memory.read m a

/-- The memory with word `v` at address `a`, in canonical form again. -/
def Memory.write : Memory → Nat → Word → Memory
  | [], a, v => if v = Memory.unlisted then [] else [(a, v)]
  | (k, u) :: m, a, v =>
    if a < k then
      if v = Memory.unlisted then (k, u) :: m else (a, v) :: (k, u) :: m
    else if a = k then
      if v = Memory.unlisted then m else (a, v) :: m
    else (k, u) :: Memory.write m a v

/-- `MemRead(addr, 1)` (R52). -/
def State.memRead (s : State) (addr : Nat) : Except Cause Word :=
  if addr < Config.memSize then .ok (Memory.read s.mem addr) else .error (.outOfBounds .mem addr s.pc)

/-- `mem[addr] <- v`, for an address inside memory. -/
def State.store (s : State) (addr : Nat) (v : Word) : State := { s with mem := Memory.write s.mem addr v }

/-- `MemWrite(addr, 1, v)` (R52). -/
def State.memWrite (s : State) (addr : Nat) (v : Word) : Except Cause State :=
  if addr < Config.memSize then .ok (s.store addr v) else .error (.outOfBounds .mem addr s.pc)

/-! ## Registers, flags, program counter, run state, output -/

/-- `x[i]` (R10, R21). -/
def State.reg (s : State) (i : Fin 8) : Word := s.regs[i]

/-- `x[i] <- v` (R10, R21). -/
def State.setReg (s : State) (i : Fin 8) (v : Word) : State := { s with regs := s.regs.set i v }

/-- `SP`, which is `x[7]` (R22). -/
def State.sp (s : State) : Word := s.reg Config.spIndex

/-- `FL <- f`. -/
def State.setFlags (s : State) (f : Flags) : State := { s with fl := f }

/-- `pc <- pc + n` (R107); pc does not wrap (R24). -/
def State.advance (s : State) (n : Nat) : State := { s with pc := s.pc + n }

/-- `pc <- t` for a target, which is always a word (R26, R168). -/
def State.jump (s : State) (t : Word) : State := { s with pc := t.toNat }

/-- `run <- Halted` (R180). -/
def State.halt (s : State) : State := { s with run := .halted }

/-- `Emit(e)` (R10, R32): append to the output log. -/
def State.emit (s : State) (e : Event) : State := { s with out := s.out ++ [e] }

/-! ## Taking a fatal condition

The one entry of R196. There is no return from it (R197): no instruction leaves `Fatal`, and `step` takes no
step there. -/

/-- `raise c` (R10, R196): `run <- Fatal(c)`, one diagnostic event, nothing else. -/
def State.raise (s : State) (c : Cause) : State :=
  { s with run := .fatal c, out := s.out ++ [.diag (.fatal c)] }

/-- How an instruction that started in `s` ends: in the state its handler made, or, at the first `raise`, in `s`
with the condition taken, so that the instruction has had no effect (R102, R196). -/
def State.settle (s : State) : Except Cause State → Outcome
  | .ok t => .next t
  | .error c => .next (s.raise c)

/-! ## The stack primitives (R151) -/

/-- The first half of `Push`: `x[7] <- (x[7] - 1) mod 256`. -/
def State.decSp (s : State) : State := s.setReg Config.spIndex (s.sp - 1)

/-- The second half of `Push`: `MemWrite(x[7], 1, v)`, at the new SP. -/
def State.storeTop (s : State) (v : Word) : Except Cause State := s.memWrite s.sp.toNat v

/-- `Push(v)`. -/
def State.push (s : State) (v : Word) : Except Cause State := s.decSp.storeTop v

/-- The first half of `Pop`: `MemRead(x[7], 1)`, at the current SP. -/
def State.loadTop (s : State) : Except Cause Word := s.memRead s.sp.toNat

/-- The second half of `Pop`: `x[7] <- (x[7] + 1) mod 256`. -/
def State.incSp (s : State) : State := s.setReg Config.spIndex (s.sp + 1)

/-- `Pop()`: the word and the state after. -/
def State.popWord (s : State) : Except Cause (Word × State) :=
  match s.loadTop with
  | .error c => .error c
  | .ok v => .ok (v, s.incSp)

/-! ## The load (R222, R223) -/

/-- The words of an image written from address `k` on, in ascending order; a write beyond memory is the fatal
condition of R223. -/
def State.loadFrom (k : Nat) : List Word → State → State
  | [], s => s
  | w :: ws, s =>
    match s.memWrite k w with
    | .error c => s.raise c
    | .ok t => State.loadFrom (k + 1) ws t

/-- The Loader's effect: the image from address 0 (R222). It happens once, after reset and before the first step
(R64, R221); no step performs it. -/
def State.load (image : List Word) (s : State) : State := State.loadFrom Config.loadBase image s

/-- The launch state of an image (R222): the state every claim about a program starts from. -/
def State.launch (image : List Word) : State := State.reset.load image

/-! ## What the host observes -/

/-- The text the wrapper prints for an event (R245): the decimal numeral and a line break for `Print(v)`; the
wording of a diagnostic is not fixed, so it has none here. -/
def Event.render : Event → Option String
  | .print v => some (toString v.toNat ++ "\n")
  | .diag _ => none

/-- The wrapper's exit status (R247): 0 after HLT, some non-zero value after a fatal stop, none before the end. -/
def RunState.exitStatus : RunState → Option Nat
  | .running => none
  | .halted => some 0
  | .fatal c => some (Config.fatalExitStatusLessOne c + 1)

end Sys2Proof.Machine
end

