-- ==== Sys2Proof/Machine/Alu.lean ====
section
/-! DEFINITION. The ALU as a unit and the meanings of ADD, SUB, MUL and CMP (42_alu.md). -/

namespace Sys2Proof.Machine

/-- The ALU's operation input (R131): the four operations, or any other name, which the ALU must refuse (R132). -/
inductive AluOp where
  | add
  | sub
  | mul
  | cmp
  | other (name : String)
  deriving DecidableEq, Repr

/-- The exact result narrowed to 8 bits: `n mod 256` (R133). -/
def narrow (n : Int) : Word := BitVec.ofInt 8 n

/-- `apply(op, dest_index, src_index)` (R130, R133, R241): reads both registers, then writes the destination or the
flags; any other name is `UnsupportedOperation` (R132, R193). -/
def State.alu (op : AluOp) (dest src : Fin 8) (s : State) : Except Cause State :=
  match op with
  | .add => .ok (s.setReg dest (narrow ((s.reg dest).toNat + (s.reg src).toNat)))
  | .sub => .ok (s.setReg dest (narrow ((s.reg dest).toNat - (s.reg src).toNat)))
  | .mul => .ok (s.setReg dest (narrow ((s.reg dest).toNat * (s.reg src).toNat)))
  | .cmp => .ok (s.setFlags (Flags.compare (s.reg dest) (s.reg src)))
  | .other name => .error (.unsupportedOperation name s.pc)

/-- An instruction of format RR: operand 1 is checked before operand 2 (R105), then the ALU operates, then
`pc <- pc + 3`. -/
def State.aluInstr (op : AluOp) (a b : Word) (s : State) : Except Cause State := do
  let d ← s.regOperand a
  let r ← s.regOperand b
  let t ← s.alu op d r
  .ok (t.advance 3)

/-- `ADD a, b` (R134). -/
def execAdd (a b : Word) (s : State) : Outcome := s.settle (s.aluInstr .add a b)

/-- `SUB a, b` (R135). -/
def execSub (a b : Word) (s : State) : Outcome := s.settle (s.aluInstr .sub a b)

/-- `MUL a, b` (R136). -/
def execMul (a b : Word) (s : State) : Outcome := s.settle (s.aluInstr .mul a b)

/-- `CMP a, b` (R137). -/
def execCmp (a b : Word) (s : State) : Outcome := s.settle (s.aluInstr .cmp a b)

end Sys2Proof.Machine
end

