-- ==== Sys2Proof/Machine/Control.lean ====
section
/-! DEFINITION. The meanings of CALL, RET, JMP, JEQ, JNE and of the optional JGT, JLT (44_control.md). -/

namespace Sys2Proof.Machine

/-- A conditional jump of format R: the operand is checked whether or not the jump is taken (R104); the target is
`x[r]` when `taken`, else `pc + 2`. -/
def State.branchIf (taken : Bool) (r : Word) (s : State) : Except Cause State := do
  let d ← s.regOperand r
  .ok (if taken then s.jump (s.reg d) else s.advance 2)

/-- `CALL r` (R160): a return address above 255 is `OutOfBounds(mem, ret)` before any change (D13); `x[r]` is read
after the push (D15). -/
def execCall (r : Word) (s : State) : Outcome := s.settle do
  let d ← s.regOperand r
  if s.pc + 2 > 255 then
    .error (.outOfBounds .mem (s.pc + 2) s.pc)
  else
    let t ← s.push (BitVec.ofNat 8 (s.pc + 2))
    .ok (t.jump (t.reg d))

/-- `RET` (R161) with `RET_EMPTY_POLICY = pop`: no emptiness test. -/
def execRet (s : State) : Outcome := s.settle do
  let (v, t) ← s.popWord
  .ok (t.jump v)

/-- `JMP r` (R162). -/
def execJmp (r : Word) (s : State) : Outcome := s.settle (s.branchIf true r)

/-- `JEQ r` (R163). -/
def execJeq (r : Word) (s : State) : Outcome := s.settle (s.branchIf s.fl.e r)

/-- `JNE r` (R164): taken when the equal flag is clear. -/
def execJne (r : Word) (s : State) : Outcome := s.settle (s.branchIf (!s.fl.e) r)

/-- `JGT r` (R166). -/
def execJgt (r : Word) (s : State) : Outcome := s.settle (s.branchIf s.fl.g r)

/-- `JLT r` (R167). -/
def execJlt (r : Word) (s : State) : Outcome := s.settle (s.branchIf s.fl.l r)

end Sys2Proof.Machine
end

