-- ==== Sys2Proof/Machine/Hlt.lean ====
section
/-! DEFINITION. The meaning of HLT (45_hlt.md). -/

namespace Sys2Proof.Machine

/-- `HLT` (R180): `pc <- pc + 1`, `run <- Halted`. -/
def execHlt (s : State) : Outcome := s.settle (.ok (s.advance 1).halt)

end Sys2Proof.Machine
end

