-- ==== Sys2Proof/Machine/LdiPrn.lean ====
section
/-! DEFINITION. The meanings of LDI and PRN (41_ldi_prn.md). -/

namespace Sys2Proof.Machine

/-- `LDI r, imm` (R120). -/
def execLdi (r imm : Word) (s : State) : Outcome := s.settle do
  let d ← s.regOperand r
  .ok ((s.setReg d imm).advance 3)

/-- `PRN r` (R121). -/
def execPrn (r : Word) (s : State) : Outcome := s.settle do
  let d ← s.regOperand r
  .ok ((s.emit (.print (s.reg d))).advance 2)

end Sys2Proof.Machine
end

