-- ==== Sys2Proof/Machine/Stack.lean ====
section
/-! DEFINITION. The meanings of PUSH and POP (43_stack.md). -/

namespace Sys2Proof.Machine

/-- `PUSH r` (R152): `x[r]` is read after the decrement (D15). -/
def execPush (r : Word) (s : State) : Outcome := s.settle do
  let d ← s.regOperand r
  let t ← s.decSp.storeTop (s.decSp.reg d)
  .ok (t.advance 2)

/-- `POP r` (R153) with `EMPTY_POP_POLICY = benign`: at SP = 0xF4 a diagnostic and nothing else; otherwise the
increment follows the write of `x[r]` (D15). -/
def execPop (r : Word) (s : State) : Outcome := s.settle do
  let d ← s.regOperand r
  if s.sp = Config.spReset then
    .ok ((s.emit (.diag (.emptyStackPop s.pc))).advance 2)
  else
    let v ← s.loadTop
    .ok ((s.setReg d v).incSp.advance 2)

end Sys2Proof.Machine
end

