-- ==== Sys2Proof/Machine/Fetch.lean ====
section
/-! DEFINITION. The part of a step before dispatch (40_dispatcher.md R100, R102 phases 1 to 3): whether there is a
step, the opcode fetch, the decode, the operand fetch. And how a table word is placed where the next step
fetches. -/

namespace Sys2Proof.Machine

/-- Phases 1 to 3 of R102: `mem[pc]`, `mem[pc+1]`, `mem[pc+2]` are read as far as the opcode asks, each with its
bounds check (R103, R104, R111). -/
def State.fetch (s : State) : Except Cause Instr :=
  decodeFrom s.params (fun k => s.memRead (s.pc + k)) (fun b => .decodeError b s.pc)

/-- The start of a step: the instruction to perform, or how the step ends without one. A machine that is not
`Running` has no step (R100); a condition raised by phases 1 to 3 is taken (R196). -/
def State.beginStep (s : State) : Except Outcome Instr :=
  match s.run with
  | .halted => .error (.fault .halted)
  | .fatal c => .error (.fault (.stopped c))
  | .running =>
    match s.fetch with
    | .ok i => .ok i
    | .error c => .error (.next (s.raise c))

/-- The words written from address `a` on, as far as memory reaches. -/
def Memory.place (m : Memory) (a : Nat) : List Word → Memory
  | [] => m
  | w :: ws => Memory.place (if a < Config.memSize then Memory.write m a w else m) (a + 1) ws

/-- The words of a table word at pc, pc+1 and pc+2, the machine running, and the word's row present. -/
def State.placeWord (s : State) (nbits w : Nat) : State :=
  { s with
    mem := Memory.place s.mem s.pc (tableWords nbits w)
    run := .running
    params := Params.withRow s.params (BitVec.ofNat 8 (w % 2 ^ nbits)) }

end Sys2Proof.Machine
end

