-- ==== Sys2Proof/Machine/Step.lean ====
section
/-! DEFINITION. One step of the machine (40_dispatcher.md R100, R102), and a table word placed for the next one. -/

namespace Sys2Proof.Machine

/-- One step: the whole of one instruction (R11, R102). Phases 1 to 3 are `State.beginStep`; phases 4 and 5, the
register operand check and the handler, are the instruction's meaning. -/
def step (s : State) : Host.Outcome State Fault Refusal :=
  match s.beginStep with
  | .error o => o
  | .ok i => exec i s

/-- The state whose next step fetches and runs the instruction of a word of the opcode table: its three words stand
at pc, pc+1, pc+2 (as far as memory reaches), the machine is `Running`, and its row is present. It stands for the
load (R222) and, for SUB, JGT and JLT, for the parameter that the table's `present_if` names (assumption log 1). -/
def State.withFetchWord (s : State) (nbits w : Nat) : State := s.placeWord nbits w

end Sys2Proof.Machine
end

