-- ==== Sys2Proof/Safety.lean ====
section
/-! DEFINITION. The terms claims use: the invariant of 10_state.md R37, reachability (70_reset_and_hazards.md R221),
the list of fatal causes in the order of 60_exceptions.md R198, and what an instruction may touch
(10_state.md R23, 20_memory.md R54). -/

namespace Sys2Proof.Machine

/-- The address of the instruction a fatal condition names (R190). -/
def Cause.pc : Cause → Nat
  | .decodeError _ p => p
  | .outOfBounds _ _ p => p
  | .unsupportedOperation _ p => p

/-- The machine stopped with a fatal condition: never a good end (D25). -/
def State.Crashed (s : State) : Prop := ∃ c, s.run = .fatal c

/-- The machine ended normally (R227). -/
def State.EndedNormally (s : State) : Prop := s.run = .halted

/-- A safe step: there is one, and it does not crash. -/
def State.StepsSafely (s : State) : Prop := ∃ t, step s = .next t ∧ ¬ t.Crashed

/-- R37: what holds in every reachable state. -/
structure State.Inv (s : State) : Prop where
  /-- Memory is in canonical form, all of it inside 0..255. -/
  mem_wf : Memory.wf s.mem
  /-- pc is in 0..256 (R24, R109). -/
  pc_le : s.pc ≤ 256
  /-- FL is 0b000, 0b001, 0b010 or 0b100 (R29). -/
  flags : s.fl.atMostOne = true
  /-- A halted machine stands just after a HLT. -/
  halted : s.run = .halted →
    1 ≤ s.pc ∧ decodeOpcode s.params (Memory.read s.mem (s.pc - 1)) = some .hlt
  /-- A machine stopped by a fatal condition stands at the instruction that raised it, and the last event is that
  condition's diagnostic. -/
  fatal : ∀ c, s.run = .fatal c → c.pc = s.pc ∧ s.out.getLast? = some (.diag (.fatal c))

/-- The states a machine with some parameters comes to: construction (R220) with any `GPR_RESET` and any `FL_RESET`
that is one of R29's values (both parameters of R8), the load of some image, steps (R221). -/
inductive Reachable (p : Params) : State → Prop where
  | launch (gpr : Word) (fl : Flags) (hfl : fl.atMostOne = true) (image : List Word) :
      Reachable p ((State.construct p gpr fl).load image)
  | step {s t : State} : Reachable p s → step s = .next t → Reachable p t

/-- The word `k` places after the one at pc, whether or not it is inside memory. -/
def State.wordAhead (s : State) (k : Nat) : Word := Memory.read s.mem (s.pc + k)

/-- A cause if its condition holds. -/
def causeIf (b : Bool) (c : Cause) : List Cause := if b then [c] else []

/-- The causes of R198 that apply to a running state, in the order of its list (causes 3 to 7 for a defined
opcode). The first that applies is the one reported. -/
def State.fatalCauses (s : State) : List Cause :=
  causeIf (decide (s.pc > 255)) (.outOfBounds .mem s.pc s.pc) ++
  match decodeOpcode s.params (s.wordAhead 0) with
  | none => [.decodeError (s.wordAhead 0) s.pc]
  | some o =>
    causeIf (decide (1 ≤ o.operands ∧ s.pc + 1 > 255)) (.outOfBounds .mem (s.pc + 1) s.pc) ++
    causeIf (decide (o.operands = 2 ∧ s.pc + 2 > 255)) (.outOfBounds .mem (s.pc + 2) s.pc) ++
    causeIf (decide (o.format ≠ .z ∧ (s.wordAhead 1).toNat > 7)) (.outOfBounds .reg (s.wordAhead 1).toNat s.pc) ++
    causeIf (decide (o.format = .rr ∧ (s.wordAhead 2).toNat > 7)) (.outOfBounds .reg (s.wordAhead 2).toNat s.pc) ++
    causeIf (decide (o = .call ∧ s.pc + 2 > 255)) (.outOfBounds .mem (s.pc + 2) s.pc)

/-- The registers an instruction writes when it raises nothing, as operand words (R23); SP is 7. -/
def writtenRegs (i : Instr) (s : State) : List Word :=
  match i with
  | .ldi r _ => [r]
  | .add a _ => [a]
  | .sub a _ => [a]
  | .mul a _ => [a]
  | .push _ => [7]
  | .pop r => if s.sp = Config.spReset then [] else [r, 7]
  | .call _ => [7]
  | .ret => [7]
  | .hlt => []
  | .prn _ => []
  | .jmp _ => []
  | .jeq _ => []
  | .jne _ => []
  | .cmp _ _ => []
  | .jgt _ => []
  | .jlt _ => []

/-- The address an instruction stores to when it raises nothing (R54): PUSH and CALL store at the new SP. -/
def storeAddress (i : Instr) (s : State) : Option Nat :=
  match i with
  | .push _ => some s.decSp.sp.toNat
  | .call _ => some s.decSp.sp.toNat
  | .hlt => none
  | .ret => none
  | .pop _ => none
  | .prn _ => none
  | .jmp _ => none
  | .jeq _ => none
  | .jne _ => none
  | .ldi _ _ => none
  | .add _ _ => none
  | .sub _ _ => none
  | .mul _ _ => none
  | .cmp _ _ => none
  | .jgt _ => none
  | .jlt _ => none

/-- The register an operand word names, read in a state; for a word above 7, which names none, the low three bits
are used, so a statement about `regW` has the operand in 0..7. -/
def State.regW (s : State) (w : Word) : Word := s.reg ⟨w.toNat % 8, Nat.mod_lt _ (by decide)⟩

/-- The word an instruction stores when it raises nothing (R54): for PUSH `x[r]` after the decrement (R152), for CALL
the return address (R160). It is stored at `storeAddress`. -/
def storedWord (i : Instr) (s : State) : Option Word :=
  match i with
  | .push r => some (s.decSp.regW r)
  | .call _ => some (BitVec.ofNat 8 (s.pc + 2))
  | .hlt => none
  | .ret => none
  | .pop _ => none
  | .prn _ => none
  | .jmp _ => none
  | .jeq _ => none
  | .jne _ => none
  | .ldi _ _ => none
  | .add _ _ => none
  | .sub _ _ => none
  | .mul _ _ => none
  | .cmp _ _ => none
  | .jgt _ => none
  | .jlt _ => none

/-- The table of R26: pc after an instruction that raises nothing. -/
def tablePc (i : Instr) (s : State) : Nat :=
  match i with
  | .ldi _ _ => s.pc + 3
  | .add _ _ => s.pc + 3
  | .sub _ _ => s.pc + 3
  | .mul _ _ => s.pc + 3
  | .cmp _ _ => s.pc + 3
  | .prn _ => s.pc + 2
  | .push _ => s.pc + 2
  | .pop _ => s.pc + 2
  | .hlt => s.pc + 1
  | .jmp r => (s.regW r).toNat
  | .call r => (s.decSp.regW r).toNat
  | .ret => (Memory.read s.mem s.sp.toNat).toNat
  | .jeq r => if s.fl.e then (s.regW r).toNat else s.pc + 2
  | .jne r => if s.fl.e then s.pc + 2 else (s.regW r).toNat
  | .jgt r => if s.fl.g then (s.regW r).toNat else s.pc + 2
  | .jlt r => if s.fl.l then (s.regW r).toNat else s.pc + 2

/-- Instructions performed one after another, their conditions and pc as each leaves them; a run of meanings
without fetches. -/
def execAll : List Instr → State → Outcome
  | [], s => .next s
  | i :: is, s =>
    match exec i s with
    | .next t => execAll is t
    | .fault f => .fault f
    | .refused r => .refused r

end Sys2Proof.Machine
end

