-- ==== Sys2Proof/Certificates/Slice0/Obligations.lean ====
section
/-! DEFINITION. The statements for the provers, from the numbered rules of spec/. -/

open Sys2Proof Sys2Proof.Machine

/-! ## Encoding -/

/-- The decode vectors of 95_test_vectors.md section 2.2: one word sequence per mnemonic, the two optional jumps
with and without their parameter, SUB without its parameter, and the byte 0x00. The opcode byte values are not the
source's: they are the default `OPMAP`, the spec's decision D1, which R76 marks as general knowledge (assumption log
3, PRESUMED). -/
def Obligations.WordsDecodeAsTheTableSays : Prop :=
  decode Params.default [0b00000001] = .ok (.hlt, []) ∧
  decode Params.default [0b00010001] = .ok (.ret, []) ∧
  decode Params.default [0b01000101, 3] = .ok (.push 3, []) ∧
  decode Params.default [0b01000110, 0] = .ok (.pop 0, []) ∧
  decode Params.default [0b01000111, 7] = .ok (.prn 7, []) ∧
  decode Params.default [0b01010000, 1] = .ok (.call 1, []) ∧
  decode Params.default [0b01010100, 2] = .ok (.jmp 2, []) ∧
  decode Params.default [0b01010101, 2] = .ok (.jeq 2, []) ∧
  decode Params.default [0b01010110, 2] = .ok (.jne 2, []) ∧
  decode Params.default [0b10000010, 1, 0x82] = .ok (.ldi 1 0x82, []) ∧
  decode Params.default [0b10100000, 0, 1] = .ok (.add 0 1, []) ∧
  decode Params.default [0b10100001, 2, 3] = .ok (.sub 2 3, []) ∧
  decode Params.default [0b10100010, 0, 1] = .ok (.mul 0 1, []) ∧
  decode Params.default [0b10100111, 0, 1] = .ok (.cmp 0 1, []) ∧
  decode Params.allRows [0b01010111, 2] = .ok (.jgt 2, []) ∧
  decode Params.allRows [0b01011000, 2] = .ok (.jlt 2, []) ∧
  decode Params.default [0b01010111, 2] = .error (.unknownOpcode 0x57) ∧
  decode Params.default [0b01011000, 2] = .error (.unknownOpcode 0x58) ∧
  decode { Params.default with hasSub := false } [0b10100001, 2, 3] = .error (.unknownOpcode 0xA1) ∧
  decode Params.default [0x00] = .error (.unknownOpcode 0x00)

/-- With any legal opcode map, decoding the words of an instruction that exists gives it back, whatever its operand
words and whatever follows. -/
def Obligations.DecodeOfEncodeIsTheInstruction : Prop :=
  ∀ (p : Params) (i : Instr) (rest : List Word), p.legal = true → p.present i.op = true →
    decode p (encode p i ++ rest) = .ok (i, rest)

/-- No two word sequences decode alike: what is decoded is exactly the encoding of the instruction that comes out,
and only instructions that exist come out. -/
def Obligations.EncodeOfDecodeIsTheWords : Prop :=
  ∀ (p : Params) (ws rest : List Word) (i : Instr), decode p ws = .ok (i, rest) →
    ws = encode p i ++ rest ∧ p.present i.op = true

/-- R77: decoding is by exact match of the whole byte, total on bytes. -/
def Obligations.OpcodeDecodeIsExactMatch : Prop :=
  ∀ (p : Params) (b : Word), p.legal = true →
    (∀ o : Op, decodeOpcode p b = some o ↔ p.present o = true ∧ p.opmap.byte o = b) ∧
    (decodeOpcode p b = none ↔ ∀ o : Op, ¬ (p.present o = true ∧ p.opmap.byte o = b))

/-- R78, R79, R80: how many of the 256 bytes are defined opcodes under the default map (the spec's decision D1,
assumption log 3); 0x00 is none of them. -/
def Obligations.FourteenBytesAreOpcodes : Prop :=
  ((List.range 256).filter fun n => (decodeOpcode Params.default (BitVec.ofNat 8 n)).isSome).length = 14 ∧
  ((List.range 256).filter fun n =>
    (decodeOpcode { Params.default with hasSub := false } (BitVec.ofNat 8 n)).isSome).length = 13 ∧
  ((List.range 256).filter fun n => (decodeOpcode Params.allRows (BitVec.ofNat 8 n)).isSome).length = 16 ∧
  decodeOpcode Params.default 0x00 = none

/-- R73: the length of an instruction is a function of its opcode byte alone, by bits 7:6. -/
def Obligations.OpcodeHighBitsGiveTheLength : Prop :=
  ∀ (p : Params) (b : Word) (ws rest : List Word) (i : Instr), p.legal = true →
    decode p (b :: ws) = .ok (i, rest) →
      ws.length = b.toNat / 64 + rest.length ∧ i.operandWords.length = b.toNat / 64

/-- R79: SUB decodes exactly when `HAS_SUB`, JGT and JLT exactly when `EXT_JGT_JLT`. -/
def Obligations.OptionalRowsFollowTheirParameters : Prop :=
  ∀ p : Params, p.legal = true →
    (decodeOpcode p p.opmap.sub = some .sub ↔ p.hasSub = true) ∧
    (decodeOpcode p p.opmap.jgt = some .jgt ↔ p.extJgtJlt = true) ∧
    (decodeOpcode p p.opmap.jlt = some .jlt ↔ p.extJgtJlt = true)

/-! ## The step -/

/-- When the words from pc to the end of memory decode to an instruction, a step of a running machine is that
instruction's meaning at that state. -/
def Obligations.StepRunsTheDecodedInstruction : Prop :=
  ∀ (s : State) (i : Instr) (rest : List Word), s.run = .running →
    decode s.params ((List.range (256 - s.pc)).map s.wordAhead) = .ok (i, rest) → step s = exec i s

/-- When the words of an instruction that exists stand at pc, inside memory, a step performs it. -/
def Obligations.StepRunsTheInstructionInMemory : Prop :=
  ∀ (s : State) (i : Instr), s.run = .running → s.params.legal = true → s.params.present i.op = true →
    (∀ (k : Nat) (w : Word), (encode s.params i)[k]? = some w → s.memRead (s.pc + k) = .ok w) →
    step s = exec i s

/-- R100: a step is taken if and only if the machine is Running; Halted and Fatal have none (D25). That the model says
so by the faults `halted` and `stopped` is its own reading (assumption log 4, DEDUCED): R100 says only that no step is
taken. -/
def Obligations.StepExistsExactlyWhileRunning : Prop :=
  ∀ s : State,
    ((∃ t, step s = .next t) ↔ s.run = .running) ∧
    (s.run = .halted → step s = .fault .halted) ∧
    (∀ c, s.run = .fatal c → step s = .fault (.stopped c))

/-- R103: the opcode fetch beyond memory. -/
def Obligations.OpcodeFetchBeyondMemoryIsFatal : Prop :=
  ∀ s : State, s.run = .running → s.pc = 256 →
    step s = .next { s with
      run := .fatal (.outOfBounds .mem 256 256)
      out := s.out ++ [.diag (.fatal (.outOfBounds .mem 256 256))] }

/-- R111: an undefined opcode byte raises DecodeError with the byte and pc; no operand is read, so this is so at
pc = 255 too. -/
def Obligations.UndefinedOpcodeIsDecodeError : Prop :=
  ∀ (s : State) (b : Word), s.run = .running → s.memRead s.pc = .ok b → decodeOpcode s.params b = none →
    step s = .next { s with
      run := .fatal (.decodeError b s.pc)
      out := s.out ++ [.diag (.fatal (.decodeError b s.pc))] }

/-- R104: an operand address above 255 is OutOfBounds(mem, 256); it does not wrap. -/
def Obligations.OperandFetchBeyondMemoryIsFatal : Prop :=
  ∀ (s : State) (b : Word) (o : Op), s.run = .running → s.memRead s.pc = .ok b →
    decodeOpcode s.params b = some o →
    (s.pc = 255 → 1 ≤ o.operands → step s = .next (s.raise (.outOfBounds .mem 256 255))) ∧
    (s.pc = 254 → o.operands = 2 → step s = .next (s.raise (.outOfBounds .mem 256 254)))

/-- R105, R74: the first register operand above 7 is reported, before any effect, for every instruction. -/
def Obligations.RegisterOperandAboveSevenIsFatal : Prop :=
  ∀ (i : Instr) (s : State) (w : Word), i.regOperands.find? (fun v => decide (7 < v.toNat)) = some w →
    exec i s = .next (s.raise (.outOfBounds .reg w.toNat s.pc))

/-- R198: a running machine reports the first of the causes that apply, in the order of the rule, and steps without
a fatal condition when none applies. -/
def Obligations.FirstFatalCauseIsReported : Prop :=
  ∀ s : State, s.run = .running →
    match s.fatalCauses.head? with
    | some c => step s = .next (s.raise c)
    | none => ∃ t, step s = .next t ∧ ¬ t.Crashed

/-- R196: a fatal step changes `run` and adds one diagnostic; memory, registers, flags and pc are as before, and
the condition carries pc. -/
def Obligations.FatalStepChangesOnlyRunAndOutput : Prop :=
  ∀ (s t : State) (c : Cause), step s = .next t → t.run = .fatal c →
    t = { s with run := .fatal c, out := s.out ++ [.diag (.fatal c)] } ∧ c.pc = s.pc

/-- R31: Running goes to Halted only by HLT and to Fatal only by a fatal condition; nothing leaves the other two. -/
def Obligations.RunStateTransitions : Prop :=
  ∀ s t : State, step s = .next t →
    s.run = .running ∧
    (t.run = .running ∨
      (t.run = .halted ∧ s.fetch = .ok .hlt ∧ t.pc = s.pc + 1) ∨
      ∃ c, t = s.raise c)

/-- Every instruction whose register operands name registers completes without a condition, from every state, but
for CALL whose return address is above 255; only HLT changes the run state. -/
def Obligations.WellFormedInstructionsComplete : Prop :=
  ∀ (i : Instr) (s : State), i.wellFormed = true → (i.op = .call → s.pc + 2 ≤ 255) →
    ∃ t, exec i s = .next t ∧ t.run = if i.op = .hlt then .halted else s.run

/-- R132, R193: the ALU refuses an operation name it does not have, and no step of any machine raises it. -/
def Obligations.UnsupportedOperationIsUnreachable : Prop :=
  (∀ (s : State) (d r : Fin 8) (name : String),
    s.alu (.other name) d r = .error (.unsupportedOperation name s.pc)) ∧
  ∀ (s t : State) (name : String) (q : Nat), step s = .next t → t.run ≠ .fatal (.unsupportedOperation name q)

/-! ## Reset, load, invariant -/

/-- The values after reset, x[0..6] and FL among them (the spec's decisions D8 and D9; assumption log 2). -/
def Obligations.ResetValues : Prop :=
  (∀ a, Memory.read State.reset.mem a = 0x00) ∧ State.reset.sp = 0xF4 ∧ State.reset.pc = 0 ∧
  State.reset.run = .running ∧ State.reset.out = [] ∧
  (∀ i : Fin 8, i ≠ 7 → State.reset.reg i = 0x00) ∧ State.reset.fl = ⟨false, false, false⟩

/-- The invariant holds after reset. -/
def Obligations.ResetSatisfiesTheInvariant : Prop := State.reset.Inv

/-- R37 as an invariant: from every state that meets it, a step gives a state that meets it. -/
def Obligations.EveryStepKeepsTheInvariant : Prop :=
  ∀ s t : State, s.Inv → step s = .next t → t.Inv

/-- R37: the invariant holds in every state a machine comes to, with any build parameters, any `GPR_RESET`, any
`FL_RESET` that is one of R29's values, and any image. For an image of more than 256 words (R223) the invariant's clause
on `Fatal` (pc = 0 in the condition, its diagnostic the last event) is the model's reading (assumption log 6,
DEDUCED). -/
def Obligations.EveryReachableStateSatisfiesTheInvariant : Prop :=
  ∀ (p : Params) (s : State), Reachable p s → s.Inv ∧ s.params = p

/-- R222: the load writes the image from address 0 on and changes nothing else. -/
def Obligations.LoadWritesTheImageOnly : Prop :=
  ∀ (image : List Word) (s : State), Memory.wf s.mem → image.length ≤ 256 →
    (∀ a, Memory.read (s.load image).mem a = (image[a]?).getD (Memory.read s.mem a)) ∧
    (s.load image).regs = s.regs ∧ (s.load image).pc = s.pc ∧ (s.load image).fl = s.fl ∧
    (s.load image).run = s.run ∧ (s.load image).out = s.out

/-- R223 with D19: an image longer than memory leaves the machine Fatal before its first step, memory filled. -/
def Obligations.OversizeImageIsFatalAtLoad : Prop :=
  ∀ image : List Word, 256 < image.length →
    (State.launch image).run = .fatal (.outOfBounds .mem 256 0) ∧
    ∀ (a : Nat) (w : Word), a < 256 → image[a]? = some w → Memory.read (State.launch image).mem a = w

/-- Two canonical memories that read alike at every address are equal. -/
def Obligations.CanonicalMemoriesThatReadAlikeAreEqual : Prop :=
  ∀ m m' : Memory, Memory.wf m → Memory.wf m' → (∀ a, Memory.read m a = Memory.read m' a) → m = m'

/-! ## Whole-machine rules -/

/-- R28, the writers: no instruction but CMP changes the flags. -/
def Obligations.OnlyCmpWritesTheFlags : Prop :=
  ∀ (i : Instr) (s t : State), exec i s = .next t → i.op ≠ .cmp → t.fl = s.fl

/-- R28, the readers: the flags a jump does not name have no influence, and the old flags have none on CMP. -/
def Obligations.OnlyConditionalJumpsReadTheFlags : Prop :=
  ∀ (i : Instr) (s t : State) (f : Flags), exec i s = .next t →
    (i.op ≠ .cmp → (i.op = .jeq ∨ i.op = .jne → f.e = s.fl.e) → (i.op = .jgt → f.g = s.fl.g) →
      (i.op = .jlt → f.l = s.fl.l) → exec i { s with fl := f } = .next { t with fl := f }) ∧
    (i.op = .cmp → i.wellFormed = true → exec i { s with fl := f } = .next t)

/-- R54, R36: the memory frame. Every address but the one an instruction stores to reads as before; only PUSH and
CALL have such an address. -/
def Obligations.MemoryFrame : Prop :=
  ∀ (i : Instr) (s t : State), exec i s = .next t →
    (∀ a, storeAddress i s ≠ some a → Memory.read t.mem a = Memory.read s.mem a) ∧
    (i.op ≠ .push → i.op ≠ .call → t.mem = s.mem)

/-- R23: the register frame. Every register but the ones the rule's table names keeps its value. -/
def Obligations.RegisterFrame : Prop :=
  ∀ (i : Instr) (s t : State) (d : Fin 8), exec i s = .next t →
    (∀ w ∈ writtenRegs i s, w.toNat ≠ d.val) → t.reg d = s.reg d

/-- R32: the output log only grows, by at most one event, and only at PRN, an empty-stack POP or a fatal
condition. -/
def Obligations.OutputGrowsOnlyByItsEvents : Prop :=
  ∀ (i : Instr) (s t : State), exec i s = .next t →
    (t.out = s.out ∨
      (∃ r v, i = .prn r ∧ t.out = s.out ++ [.print v]) ∨
      (∃ r, i = .pop r ∧ s.sp = 0xF4 ∧ t.out = s.out ++ [.diag (.emptyStackPop s.pc)]) ∨
      ∃ c, t = s.raise c)

/-- R32: the core never reads the output log: an earlier log in front changes nothing else. -/
def Obligations.OutputIsNeverRead : Prop :=
  ∀ (s t : State) (earlier : List Event), step s = .next t →
    step { s with out := earlier ++ s.out } = .next { t with out := earlier ++ t.out }

/-- The build parameters are constant: no step changes them (the model's own field, assumption log 1). -/
def Obligations.BuildParametersNeverChange : Prop :=
  ∀ s t : State, step s = .next t → t.params = s.params

/-- R26: pc after every instruction, as the rule's table gives it; unchanged by a fatal condition. -/
def Obligations.NextPcIsAsTheTableSays : Prop :=
  ∀ (i : Instr) (s t : State), s.run = .running → exec i s = .next t →
    (t.Crashed → t.pc = s.pc) ∧ (¬ t.Crashed → t.pc = tablePc i s)

/-- R24, R109: pc never exceeds 256, and stands at 256 only after a sequential advance (or where it was, when the
fetch at 256 is fatal). -/
def Obligations.PcReaches256OnlySequentially : Prop :=
  ∀ s t : State, s.pc ≤ 256 → step s = .next t →
    t.pc ≤ 256 ∧ (t.pc = 256 → t.Crashed ∨ ∃ i, s.fetch = .ok i ∧ t.pc = s.pc + i.op.width)

/-! ## Results -/

/-- LDI (R120). -/
def Obligations.LdiResult : Prop :=
  ∀ (s : State) (r imm : Word) (h : r.toNat < 8),
    exec (.ldi r imm) s = .next { s with regs := s.regs.set r.toNat imm h, pc := s.pc + 3 }

/-- PRN (R121). -/
def Obligations.PrnResult : Prop :=
  ∀ (s : State) (r : Word) (h : r.toNat < 8),
    exec (.prn r) s = .next { s with out := s.out ++ [.print (s.regs[r.toNat]'h)], pc := s.pc + 2 }

/-- ADD (R134, R133). -/
def Obligations.AddResult : Prop :=
  ∀ (s : State) (a b : Word) (ha : a.toNat < 8) (hb : b.toNat < 8),
    exec (.add a b) s = .next { s with
      regs := s.regs.set a.toNat
        (BitVec.ofNat 8 (((s.regs[a.toNat]'ha).toNat + (s.regs[b.toNat]'hb).toNat) % 256)) ha
      pc := s.pc + 3 }

/-- SUB (R135, R133): A - B when A is at least B, else A - B + 256. -/
def Obligations.SubResult : Prop :=
  ∀ (s : State) (a b : Word) (ha : a.toNat < 8) (hb : b.toNat < 8),
    exec (.sub a b) s = .next { s with
      regs := s.regs.set a.toNat
        (BitVec.ofNat 8
          (if (s.regs[b.toNat]'hb).toNat ≤ (s.regs[a.toNat]'ha).toNat
            then (s.regs[a.toNat]'ha).toNat - (s.regs[b.toNat]'hb).toNat
            else 256 + (s.regs[a.toNat]'ha).toNat - (s.regs[b.toNat]'hb).toNat)) ha
      pc := s.pc + 3 }

/-- MUL (R136, R133). -/
def Obligations.MulResult : Prop :=
  ∀ (s : State) (a b : Word) (ha : a.toNat < 8) (hb : b.toNat < 8),
    exec (.mul a b) s = .next { s with
      regs := s.regs.set a.toNat
        (BitVec.ofNat 8 (((s.regs[a.toNat]'ha).toNat * (s.regs[b.toNat]'hb).toNat) % 256)) ha
      pc := s.pc + 3 }

/-- CMP (R137): unsigned, all three flags written. -/
def Obligations.CmpResult : Prop :=
  ∀ (s : State) (a b : Word) (ha : a.toNat < 8) (hb : b.toNat < 8),
    exec (.cmp a b) s = .next { s with
      fl := {
        e := decide ((s.regs[a.toNat]'ha).toNat = (s.regs[b.toNat]'hb).toNat)
        l := decide ((s.regs[a.toNat]'ha).toNat < (s.regs[b.toNat]'hb).toNat)
        g := decide ((s.regs[a.toNat]'ha).toNat > (s.regs[b.toNat]'hb).toNat) }
      pc := s.pc + 3 }

/-- R138: the flags CMP leaves, as a byte, and which jumps are then taken, for each relation of the operands; and the
row of the latch before any CMP. -/
def Obligations.CompareThenJumpTable : Prop :=
  (∀ (s t : State) (a b r : Word) (ha : a.toNat < 8) (hb : b.toNat < 8) (hr : r.toNat < 8),
    exec (.cmp a b) s = .next t →
      let x := (s.regs[a.toNat]'ha).toNat
      let y := (s.regs[b.toNat]'hb).toNat
      let target := (s.regs[r.toNat]'hr).toNat
      t.fl.toByte = (if x = y then 0b00000001 else if x < y then 0b00000100 else 0b00000010) ∧
      exec (.jeq r) t = .next { t with pc := if x = y then target else t.pc + 2 } ∧
      exec (.jne r) t = .next { t with pc := if x = y then t.pc + 2 else target } ∧
      exec (.jlt r) t = .next { t with pc := if x < y then target else t.pc + 2 } ∧
      exec (.jgt r) t = .next { t with pc := if x > y then target else t.pc + 2 }) ∧
  (∀ (s : State) (r : Word) (hr : r.toNat < 8), s.fl = State.reset.fl →
    s.fl.toByte = 0b00000000 ∧
    exec (.jeq r) s = .next { s with pc := s.pc + 2 } ∧
    exec (.jne r) s = .next { s with pc := (s.regs[r.toNat]'hr).toNat } ∧
    exec (.jlt r) s = .next { s with pc := s.pc + 2 } ∧
    exec (.jgt r) s = .next { s with pc := s.pc + 2 })

/-- PUSH (R152): SP first, then the store of x[r], which for r = 7 is the decremented SP. -/
def Obligations.PushResult : Prop :=
  ∀ (s : State) (r : Word) (h : r.toNat < 8), Memory.wf s.mem →
    ∃ t, exec (.push r) s = .next t ∧
      t.regs = s.regs.set 7 (s.sp - 1) ∧
      Memory.read t.mem (s.sp - 1).toNat = (s.regs.set 7 (s.sp - 1))[r.toNat]'h ∧
      (∀ a, a ≠ (s.sp - 1).toNat → Memory.read t.mem a = Memory.read s.mem a) ∧
      t.pc = s.pc + 2 ∧ t.fl = s.fl ∧ t.run = s.run ∧ t.out = s.out

/-- POP with SP other than 0xF4 (R153): the load, then the increment, which for r = 7 acts on the loaded word. -/
def Obligations.PopResult : Prop :=
  ∀ (s : State) (r : Word) (h : r.toNat < 8), s.sp ≠ 0xF4 →
    exec (.pop r) s = .next { s with
      regs := (s.regs.set r.toNat (Memory.read s.mem s.sp.toNat) h).set 7
        (if r.toNat = 7 then Memory.read s.mem s.sp.toNat + 1 else s.sp + 1)
      pc := s.pc + 2 }

/-- R194: POP with SP = 0xF4 emits its diagnostic, advances pc by 2, and does nothing else. -/
def Obligations.EmptyStackPopOnlyReports : Prop :=
  ∀ (s : State) (r : Word), r.toNat < 8 → s.sp = 0xF4 →
    exec (.pop r) s = .next { s with
      out := s.out ++ [.diag (.emptyStackPop s.pc)]
      pc := s.pc + 2 }

/-- CALL (R160): pc + 2 is pushed, then pc is x[r], which for r = 7 is the decremented SP. -/
def Obligations.CallResult : Prop :=
  ∀ (s : State) (r : Word) (h : r.toNat < 8), Memory.wf s.mem → s.pc + 2 ≤ 255 →
    ∃ t, exec (.call r) s = .next t ∧
      t.regs = s.regs.set 7 (s.sp - 1) ∧
      Memory.read t.mem (s.sp - 1).toNat = BitVec.ofNat 8 (s.pc + 2) ∧
      (∀ a, a ≠ (s.sp - 1).toNat → Memory.read t.mem a = Memory.read s.mem a) ∧
      t.pc = ((s.regs.set 7 (s.sp - 1))[r.toNat]'h).toNat ∧ t.fl = s.fl ∧ t.run = s.run ∧ t.out = s.out

/-- CALL at pc = 254 (R160, D13): OutOfBounds(mem, 256), nothing pushed. -/
def Obligations.CallAt254IsFatal : Prop :=
  ∀ (s : State) (r : Word), r.toNat < 8 → s.pc = 254 →
    exec (.call r) s = .next (s.raise (.outOfBounds .mem 256 254))

/-- RET (R161): no emptiness test. -/
def Obligations.RetResult : Prop :=
  ∀ s : State,
    exec .ret s = .next { s with
      regs := s.regs.set 7 (s.sp + 1)
      pc := (Memory.read s.mem s.sp.toNat).toNat }

/-- JMP (R162). -/
def Obligations.JmpResult : Prop :=
  ∀ (s : State) (r : Word) (h : r.toNat < 8),
    exec (.jmp r) s = .next { s with pc := (s.regs[r.toNat]'h).toNat }

/-- JEQ and JNE (R163, R164). -/
def Obligations.JeqJneResult : Prop :=
  ∀ (s : State) (r : Word) (h : r.toNat < 8),
    exec (.jeq r) s = .next { s with pc := if s.fl.e = true then (s.regs[r.toNat]'h).toNat else s.pc + 2 } ∧
    exec (.jne r) s = .next { s with pc := if s.fl.e = false then (s.regs[r.toNat]'h).toNat else s.pc + 2 }

/-- JGT and JLT (R166, R167). -/
def Obligations.JgtJltResult : Prop :=
  ∀ (s : State) (r : Word) (h : r.toNat < 8),
    exec (.jgt r) s = .next { s with pc := if s.fl.g = true then (s.regs[r.toNat]'h).toNat else s.pc + 2 } ∧
    exec (.jlt r) s = .next { s with pc := if s.fl.l = true then (s.regs[r.toNat]'h).toNat else s.pc + 2 }

/-- HLT (R180). -/
def Obligations.HltResult : Prop :=
  ∀ s : State, exec .hlt s = .next { s with pc := s.pc + 1, run := .halted }

/-! ## Laws over several instructions -/

/-- R165: a RET that finds SP one below the CALL's SP and the CALL's word still there goes to the word after the CALL
and leaves SP as it was before the CALL. -/
def Obligations.CallRetRoundTrip : Prop :=
  ∀ (s t u : State) (r : Word), Memory.wf s.mem → r.toNat < 8 → s.pc ≤ 253 → exec (.call r) s = .next t →
    u.sp = s.sp - 1 →
    Memory.read u.mem (s.sp - 1).toNat = Memory.read t.mem (s.sp - 1).toNat →
    ∃ v, exec .ret u = .next v ∧ v.pc = s.pc + 2 ∧ v.sp = s.sp

/-- R154: PUSHes of registers other than R7 and then the POPs in reverse order. Whatever the other instructions
between them did to registers, flags and pc (state `u` has only the memory and SP of the state `t` after the pushes),
every register named gets back the value pushed, no other register changes but SP, and SP returns to its value before
the pushes, if no POP meets SP = 0xF4. -/
def Obligations.PopsReturnThePushedWords : Prop :=
  ∀ (s : State) (rs : List Word), Memory.wf s.mem → rs.length ≤ 255 → (∀ r ∈ rs, r.toNat < 7) →
    (∀ k, 1 ≤ k → k ≤ rs.length → s.sp - BitVec.ofNat 8 k ≠ 0xF4) →
    ∃ t, execAll (rs.map .push) s = .next t ∧ t.sp = s.sp - BitVec.ofNat 8 rs.length ∧
      ∀ u : State, u.mem = t.mem → u.sp = t.sp →
        ∃ v, execAll (rs.reverse.map .pop) u = .next v ∧ v.sp = s.sp ∧
          (∀ r ∈ rs, v.regW r = s.regW r) ∧
          (∀ d : Fin 8, d ≠ 7 → (∀ r ∈ rs, r.toNat ≠ d.val) → v.reg d = u.reg d) ∧
          v.mem = u.mem ∧ v.out = u.out

/-- R63: a word that PUSH or CALL stores is what later fetches read, as opcode word and as operand word. The storing
step completes in a state `t`; `u` is `t` itself, whose step is the very next one, or any running state in which the
cell still holds the word. Where the step from `u` fetches its opcode from that cell, the word decides the step: an
undefined opcode, an instruction whose operands would lie beyond memory, or the instruction performed. Where it fetches
an operand from that cell, the instruction performed has the word as that operand. -/
def Obligations.StoredWordsAreWhatLaterFetchesRead : Prop :=
  ∀ (s : State) (i : Instr) (a : Nat) (w : Word), Memory.wf s.mem → s.run = .running → s.fetch = .ok i →
    i.wellFormed = true → (i.op = .call → s.pc + 2 ≤ 255) → storeAddress i s = some a → storedWord i s = some w →
    ∃ t, step s = .next t ∧ t.run = .running ∧
      ∀ u : State, u.run = .running → Memory.read u.mem a = Memory.read t.mem a →
        (u.pc = a → decodeOpcode u.params w = none → step u = .next (u.raise (.decodeError w a))) ∧
        (u.pc = a → ∀ o, decodeOpcode u.params w = some o →
          if a + o.operands ≤ 255 then ∃ j, u.fetch = .ok j ∧ j.op = o ∧ step u = exec j u
          else step u = .next (u.raise (.outOfBounds .mem 256 a))) ∧
        (∀ (k : Nat) (o : Op), u.pc + (k + 1) = a → decodeOpcode u.params (u.wordAhead 0) = some o →
          k < o.operands → u.pc + o.operands ≤ 255 →
          ∃ j, u.fetch = .ok j ∧ j.op = o ∧ j.operandWords[k]? = some w ∧ step u = exec j u)

/-- R247: the exit status is 0 after HLT and not 0 after a fatal stop, and there is none before the end. -/
def Obligations.ExitStatusIsZeroExactlyAfterHalt : Prop :=
  ∀ r : RunState, (r.exitStatus = some 0 ↔ r = .halted) ∧ (r.exitStatus = none ↔ r = .running)
end

