-- ==== Sys2Proof/Laws/Decode.lean ====
section
/-! SUPPORT. What the decoder can do. -/

namespace Sys2Proof

@[simp] theorem Op.mem_all (o : Op) : o ∈ Op.all := by cases o <;> decide

@[simp] theorem Op.instr_op (o : Op) (a b : Word) : (o.instr a b).op = o := by cases o <;> rfl

/-- The operand words of the instruction built from a mnemonic and two words: as many of the two as it has. -/
theorem Op.instr_operandWords (o : Op) (a b : Word) :
    (o.instr a b).operandWords = [a, b].take o.operands := by cases o <;> rfl

/-- An instruction is built from its mnemonic and its operand words. -/
theorem Instr.eq_instr (i : Instr) :
    i = i.op.instr (i.operandWords.getD 0 0) (i.operandWords.getD 1 0) := by cases i <;> rfl

theorem Op.operands_le (o : Op) : o.operands ≤ 2 := by cases o <;> decide

/-- A decoded opcode exists and has that byte. -/
theorem decodeOpcode_some {p : Params} {b : Word} {o : Op} (h : decodeOpcode p b = some o) :
    p.present o = true ∧ p.opmap.byte o = b := by
  have := List.find?_some h
  simpa using this

/-- The bytes of a legal map are distinct and their bits 7:6 are the operand counts. -/
theorem Params.legal_spec {p : Params} (hp : p.legal = true) {o : Op} (ho : p.present o = true) :
    (p.opmap.byte o).toNat / 64 = o.operands ∧
      ∀ o', p.present o' = true → p.opmap.byte o = p.opmap.byte o' → o = o' := by
  have h := List.all_eq_true.1 hp o (Op.mem_all o)
  simp only [ho, Bool.not_true, Bool.false_or, Bool.and_eq_true, decide_eq_true_eq, List.all_eq_true] at h
  refine ⟨h.1, fun o' ho' hb => ?_⟩
  simpa [ho', hb] using h.2 o' (Op.mem_all o')

/-- What a successful operand fetch read. -/
theorem fetchOperands_ok {ε : Type} {read : Nat → Except ε Word} {n : Nat} {x y : Word}
    (hn : n ≤ 2) (h : fetchOperands read n = .ok (x, y)) :
    (1 ≤ n → read 1 = .ok x) ∧ (n = 2 → read 2 = .ok y) := by
  match n, hn with
  | 0, _ => simp
  | 1, _ =>
    simp only [fetchOperands] at h
    split at h <;> simp_all
  | 2, _ =>
    simp only [fetchOperands] at h
    split at h
    · simp at h
    · split at h <;> simp_all

/-- What a failed operand fetch failed on. -/
theorem fetchOperands_error {ε : Type} {read : Nat → Except ε Word} {n : Nat} {e : ε}
    (hn : n ≤ 2) (h : fetchOperands read n = .error e) :
    (1 ≤ n ∧ read 1 = .error e) ∨ (n = 2 ∧ (∃ x, read 1 = .ok x) ∧ read 2 = .error e) := by
  match n, hn with
  | 0, _ => simp [fetchOperands] at h
  | 1, _ =>
    simp only [fetchOperands] at h
    split at h <;> simp_all
  | 2, _ =>
    simp only [fetchOperands] at h
    split at h
    · simp_all
    · split at h <;> simp_all

/-- Everything phases 1 to 3 can answer, over any source of words. -/
theorem decodeFrom_cases {ε : Type} (p : Params) (read : Nat → Except ε Word) (unknown : Word → ε) :
    (∃ e, read 0 = .error e ∧ decodeFrom p read unknown = .error e) ∨
    (∃ b, read 0 = .ok b ∧ decodeOpcode p b = none ∧ decodeFrom p read unknown = .error (unknown b)) ∨
    (∃ b o e, read 0 = .ok b ∧ decodeOpcode p b = some o ∧ fetchOperands read o.operands = .error e ∧
      decodeFrom p read unknown = .error e) ∨
    (∃ b o x y, read 0 = .ok b ∧ decodeOpcode p b = some o ∧ fetchOperands read o.operands = .ok (x, y) ∧
      decodeFrom p read unknown = .ok (o.instr x y)) := by
  unfold decodeFrom
  cases h0 : read 0 with
  | error e => exact .inl ⟨e, rfl, rfl⟩
  | ok b =>
    cases hb : decodeOpcode p b with
    | none => exact .inr (.inl ⟨b, rfl, hb, by simp [hb]⟩)
    | some o =>
      cases hf : fetchOperands read o.operands with
      | error e => exact .inr (.inr (.inl ⟨b, o, e, rfl, hb, hf, by simp [hb, hf]⟩))
      | ok q => exact .inr (.inr (.inr ⟨b, o, q.1, q.2, rfl, hb, hf, by simp [hb, hf]⟩))

/-- A successful decode read the opcode byte of the instruction and its operand words, at offsets 0, 1, 2. -/
theorem decodeFrom_ok {ε : Type} {p : Params} {read : Nat → Except ε Word} {unknown : Word → ε} {i : Instr}
    (h : decodeFrom p read unknown = .ok i) :
    ∃ b, read 0 = .ok b ∧ decodeOpcode p b = some i.op ∧
      ∀ k w, i.operandWords[k]? = some w → read (k + 1) = .ok w := by
  rcases decodeFrom_cases p read unknown with
    ⟨e, -, hd⟩ | ⟨b, -, -, hd⟩ | ⟨b, o, e, -, -, -, hd⟩ | ⟨b, o, x, y, h0, hb, hf, hd⟩
  · simp [hd] at h
  · simp [hd] at h
  · simp [hd] at h
  · obtain rfl : o.instr x y = i := by simpa [hd] using h
    obtain ⟨h1, h2⟩ := fetchOperands_ok o.operands_le hf
    refine ⟨b, h0, by simpa using hb, fun k w hk => ?_⟩
    rw [Op.instr_operandWords] at hk
    match k with
    | 0 =>
      rw [List.getElem?_take] at hk
      split at hk
      · simp only [List.getElem?_cons_zero, Option.some.injEq] at hk
        exact hk ▸ h1 (by omega)
      · simp at hk
    | 1 =>
      rw [List.getElem?_take] at hk
      split at hk
      · have := o.operands_le
        simp only [List.getElem?_cons_succ, List.getElem?_cons_zero, Option.some.injEq] at hk
        exact hk ▸ h2 (by omega)
      · simp at hk
    | k + 2 => rw [List.getElem?_take] at hk; split at hk <;> simp_all

/-- Two sources that agree on every word the first gives decode alike where the first decodes. -/
theorem decodeFrom_congr {ε δ : Type} {p : Params} {read : Nat → Except ε Word} {unknown : Word → ε}
    {read' : Nat → Except δ Word} (unknown' : Word → δ) {i : Instr}
    (hr : ∀ k w, read k = .ok w → read' k = .ok w) (h : decodeFrom p read unknown = .ok i) :
    decodeFrom p read' unknown' = .ok i := by
  rcases decodeFrom_cases p read unknown with
    ⟨e, -, hd⟩ | ⟨b, -, -, hd⟩ | ⟨b, o, e, -, -, -, hd⟩ | ⟨b, o, x, y, h0, hb, hf, hd⟩
  · simp [hd] at h
  · simp [hd] at h
  · simp [hd] at h
  · obtain rfl : o.instr x y = i := by simpa [hd] using h
    obtain ⟨h1, h2⟩ := fetchOperands_ok o.operands_le hf
    have h0' := hr _ _ h0
    have key : ∃ x' y', fetchOperands read' o.operands = .ok (x', y') ∧ o.instr x' y' = o.instr x y := by
      cases o <;>
        simp_all [Op.operands, Op.format, Format.operands, fetchOperands, Op.instr, hr 1 x, hr 2 y]
    obtain ⟨x', y', hf', he⟩ := key
    simp [decodeFrom, h0', hb, hf', he]

end Sys2Proof
end

