-- ==== Sys2Proof/Laws/Memory.lean ====
section
/-! SUPPORT. The laws of memory: read after write, and the canonical form is kept and determines the memory. -/

namespace Sys2Proof.Machine

theorem Memory.wf_nil : Memory.wf [] := by simp [Memory.wf]

@[simp] theorem Memory.read_nil (a : Nat) : Memory.read [] a = Memory.unlisted := rfl

/-- The canonical form of a cell list, from its tail's. -/
theorem Memory.wf_cons {k : Nat} {u : Word} {m : Memory} :
    Memory.wf ((k, u) :: m) ↔ (∀ c ∈ m, k < c.1) ∧ u ≠ Memory.unlisted ∧ k < 256 ∧ Memory.wf m := by
  simp only [Memory.wf, List.pairwise_cons, List.mem_cons, forall_eq_or_imp]
  tauto

/-- An address below every listed one reads as unlisted. -/
theorem Memory.read_below {m : Memory} {a : Nat} (h : ∀ c ∈ m, a < c.1) : Memory.read m a = Memory.unlisted := by
  induction m with
  | nil => rfl
  | cons c m ih =>
    obtain ⟨k, u⟩ := c
    have hk : a < k := h (k, u) (by simp)
    have hm : ∀ c ∈ m, a < c.1 := fun c hc => h c (by simp [hc])
    simp [Memory.read, Nat.ne_of_gt hk, ih hm]

/-- An address beyond memory reads as unlisted in canonical form. -/
theorem Memory.read_beyond {m : Memory} (h : Memory.wf m) {a : Nat} (ha : 256 ≤ a) :
    Memory.read m a = Memory.unlisted := by
  induction m with
  | nil => rfl
  | cons c m ih =>
    obtain ⟨k, u⟩ := c
    obtain ⟨-, -, hk, hm⟩ := Memory.wf_cons.1 h
    have : k ≠ a := by omega
    simp [Memory.read, this, ih hm]

/-- Writing an address leaves what every other address reads as. -/
theorem Memory.read_write_other (m : Memory) {a b : Nat} (v : Word) (h : b ≠ a) :
    Memory.read (Memory.write m a v) b = Memory.read m b := by
  induction m with
  | nil => by_cases hv : v = Memory.unlisted <;> simp [Memory.write, Memory.read, hv, h.symm]
  | cons c m ih =>
    obtain ⟨k, u⟩ := c
    unfold Memory.write
    split_ifs with h1 h2 h3 h4
    · rfl
    · simp [Memory.read, h.symm]
    · have : k ≠ b := by omega
      simp [Memory.read, this]
    · have : k ≠ b := by omega
      simp [Memory.read, h.symm, this]
    · simp [Memory.read, ih]

/-- Reading the address just written gives the word written. -/
theorem Memory.read_write_same {m : Memory} (hm : Memory.wf m) (a : Nat) (v : Word) :
    Memory.read (Memory.write m a v) a = v := by
  induction m with
  | nil => by_cases hv : v = Memory.unlisted <;> simp [Memory.write, Memory.read, hv]
  | cons c m ih =>
    obtain ⟨k, u⟩ := c
    obtain ⟨hlt, -, -, hm'⟩ := Memory.wf_cons.1 hm
    unfold Memory.write
    split_ifs with h1 h2 h3 h4
    · rw [h2]
      exact Memory.read_below fun c hc => by
        rcases List.mem_cons.1 hc with rfl | hc
        · exact h1
        · exact h1.trans (hlt c hc)
    · simp [Memory.read]
    · subst h3; rw [h4]; exact Memory.read_below hlt
    · simp [Memory.read]
    · simp [Memory.read, Ne.symm h3, ih hm']

/-- Every address listed after a write was listed or is the one written. -/
theorem Memory.mem_write {m : Memory} {a : Nat} {v : Word} {c : Host.Cell} (h : c ∈ Memory.write m a v) :
    c ∈ m ∨ (c = (a, v) ∧ v ≠ Memory.unlisted) := by
  induction m with
  | nil =>
    unfold Memory.write at h
    split_ifs at h with hv <;> simp_all
  | cons d m ih =>
    obtain ⟨k, u⟩ := d
    unfold Memory.write at h
    split_ifs at h <;> simp only [List.mem_cons] at h ⊢ <;> tauto

/-- A write inside memory keeps the canonical form. -/
theorem Memory.write_wf {m : Memory} (hm : Memory.wf m) {a : Nat} (v : Word) (ha : a < 256) :
    Memory.wf (Memory.write m a v) := by
  induction m with
  | nil => by_cases hv : v = Memory.unlisted <;> simp [Memory.write, Memory.wf, hv, ha]
  | cons c m ih =>
    obtain ⟨k, u⟩ := c
    have hm0 := hm
    obtain ⟨hlt, hu, hk, hm'⟩ := Memory.wf_cons.1 hm
    unfold Memory.write
    split_ifs with h1 h2 h3 h4
    · exact hm0
    · refine Memory.wf_cons.2 ⟨fun c hc => ?_, h2, ha, hm0⟩
      rcases List.mem_cons.1 hc with rfl | hc
      · exact h1
      · exact h1.trans (hlt c hc)
    · exact hm'
    · exact Memory.wf_cons.2 ⟨h3 ▸ hlt, h4, ha, hm'⟩
    · refine Memory.wf_cons.2 ⟨fun c hc => ?_, hu, hk, ih hm'⟩
      rcases Memory.mem_write hc with hc | ⟨rfl, -⟩
      · exact hlt c hc
      · show k < a
        omega

/-- The words placed for a fetch keep the canonical form. -/
theorem Memory.place_wf {m : Memory} (hm : Memory.wf m) (a : Nat) (ws : List Word) :
    Memory.wf (Memory.place m a ws) := by
  induction ws generalizing m a with
  | nil => exact hm
  | cons w ws ih =>
    unfold Memory.place
    split_ifs with h
    · exact ih (Memory.write_wf hm w h) _
    · exact ih hm _

end Sys2Proof.Machine
end

