-- ==== Sys2Proof/Laws/State.lean ====
section
/-! SUPPORT. One lemma per field per update of State, and reads of a register after each update. -/

namespace Sys2Proof.Machine

@[simp] theorem State.setReg_mem (s : State) (d : Fin 8) (v : Word) : (s.setReg d v).mem = s.mem := rfl
@[simp] theorem State.setReg_regs (s : State) (d : Fin 8) (v : Word) : (s.setReg d v).regs = s.regs.set d v := rfl
@[simp] theorem State.setReg_pc (s : State) (d : Fin 8) (v : Word) : (s.setReg d v).pc = s.pc := rfl
@[simp] theorem State.setReg_fl (s : State) (d : Fin 8) (v : Word) : (s.setReg d v).fl = s.fl := rfl
@[simp] theorem State.setReg_run (s : State) (d : Fin 8) (v : Word) : (s.setReg d v).run = s.run := rfl
@[simp] theorem State.setReg_out (s : State) (d : Fin 8) (v : Word) : (s.setReg d v).out = s.out := rfl
@[simp] theorem State.setReg_params (s : State) (d : Fin 8) (v : Word) : (s.setReg d v).params = s.params := rfl

@[simp] theorem State.setFlags_mem (s : State) (f : Flags) : (s.setFlags f).mem = s.mem := rfl
@[simp] theorem State.setFlags_regs (s : State) (f : Flags) : (s.setFlags f).regs = s.regs := rfl
@[simp] theorem State.setFlags_pc (s : State) (f : Flags) : (s.setFlags f).pc = s.pc := rfl
@[simp] theorem State.setFlags_fl (s : State) (f : Flags) : (s.setFlags f).fl = f := rfl
@[simp] theorem State.setFlags_run (s : State) (f : Flags) : (s.setFlags f).run = s.run := rfl
@[simp] theorem State.setFlags_out (s : State) (f : Flags) : (s.setFlags f).out = s.out := rfl
@[simp] theorem State.setFlags_params (s : State) (f : Flags) : (s.setFlags f).params = s.params := rfl

@[simp] theorem State.advance_mem (s : State) (n : Nat) : (s.advance n).mem = s.mem := rfl
@[simp] theorem State.advance_regs (s : State) (n : Nat) : (s.advance n).regs = s.regs := rfl
@[simp] theorem State.advance_pc (s : State) (n : Nat) : (s.advance n).pc = s.pc + n := rfl
@[simp] theorem State.advance_fl (s : State) (n : Nat) : (s.advance n).fl = s.fl := rfl
@[simp] theorem State.advance_run (s : State) (n : Nat) : (s.advance n).run = s.run := rfl
@[simp] theorem State.advance_out (s : State) (n : Nat) : (s.advance n).out = s.out := rfl
@[simp] theorem State.advance_params (s : State) (n : Nat) : (s.advance n).params = s.params := rfl

@[simp] theorem State.jump_mem (s : State) (v : Word) : (s.jump v).mem = s.mem := rfl
@[simp] theorem State.jump_regs (s : State) (v : Word) : (s.jump v).regs = s.regs := rfl
@[simp] theorem State.jump_pc (s : State) (v : Word) : (s.jump v).pc = v.toNat := rfl
@[simp] theorem State.jump_fl (s : State) (v : Word) : (s.jump v).fl = s.fl := rfl
@[simp] theorem State.jump_run (s : State) (v : Word) : (s.jump v).run = s.run := rfl
@[simp] theorem State.jump_out (s : State) (v : Word) : (s.jump v).out = s.out := rfl
@[simp] theorem State.jump_params (s : State) (v : Word) : (s.jump v).params = s.params := rfl

@[simp] theorem State.halt_mem (s : State) : (s.halt).mem = s.mem := rfl
@[simp] theorem State.halt_regs (s : State) : (s.halt).regs = s.regs := rfl
@[simp] theorem State.halt_pc (s : State) : (s.halt).pc = s.pc := rfl
@[simp] theorem State.halt_fl (s : State) : (s.halt).fl = s.fl := rfl
@[simp] theorem State.halt_run (s : State) : (s.halt).run = .halted := rfl
@[simp] theorem State.halt_out (s : State) : (s.halt).out = s.out := rfl
@[simp] theorem State.halt_params (s : State) : (s.halt).params = s.params := rfl

@[simp] theorem State.emit_mem (s : State) (e : Event) : (s.emit e).mem = s.mem := rfl
@[simp] theorem State.emit_regs (s : State) (e : Event) : (s.emit e).regs = s.regs := rfl
@[simp] theorem State.emit_pc (s : State) (e : Event) : (s.emit e).pc = s.pc := rfl
@[simp] theorem State.emit_fl (s : State) (e : Event) : (s.emit e).fl = s.fl := rfl
@[simp] theorem State.emit_run (s : State) (e : Event) : (s.emit e).run = s.run := rfl
@[simp] theorem State.emit_out (s : State) (e : Event) : (s.emit e).out = s.out ++ [e] := rfl
@[simp] theorem State.emit_params (s : State) (e : Event) : (s.emit e).params = s.params := rfl

@[simp] theorem State.raise_mem (s : State) (c : Cause) : (s.raise c).mem = s.mem := rfl
@[simp] theorem State.raise_regs (s : State) (c : Cause) : (s.raise c).regs = s.regs := rfl
@[simp] theorem State.raise_pc (s : State) (c : Cause) : (s.raise c).pc = s.pc := rfl
@[simp] theorem State.raise_fl (s : State) (c : Cause) : (s.raise c).fl = s.fl := rfl
@[simp] theorem State.raise_run (s : State) (c : Cause) : (s.raise c).run = .fatal c := rfl
@[simp] theorem State.raise_out (s : State) (c : Cause) : (s.raise c).out = s.out ++ [.diag (.fatal c)] := rfl
@[simp] theorem State.raise_params (s : State) (c : Cause) : (s.raise c).params = s.params := rfl

@[simp] theorem State.store_mem (s : State) (a : Nat) (v : Word) : (s.store a v).mem = Memory.write s.mem a v := rfl
@[simp] theorem State.store_regs (s : State) (a : Nat) (v : Word) : (s.store a v).regs = s.regs := rfl
@[simp] theorem State.store_pc (s : State) (a : Nat) (v : Word) : (s.store a v).pc = s.pc := rfl
@[simp] theorem State.store_fl (s : State) (a : Nat) (v : Word) : (s.store a v).fl = s.fl := rfl
@[simp] theorem State.store_run (s : State) (a : Nat) (v : Word) : (s.store a v).run = s.run := rfl
@[simp] theorem State.store_out (s : State) (a : Nat) (v : Word) : (s.store a v).out = s.out := rfl
@[simp] theorem State.store_params (s : State) (a : Nat) (v : Word) : (s.store a v).params = s.params := rfl

@[simp] theorem State.decSp_mem (s : State) : (s.decSp).mem = s.mem := rfl
@[simp] theorem State.decSp_regs (s : State) : (s.decSp).regs = s.regs.set Config.spIndex (s.sp - 1) := rfl
@[simp] theorem State.decSp_pc (s : State) : (s.decSp).pc = s.pc := rfl
@[simp] theorem State.decSp_fl (s : State) : (s.decSp).fl = s.fl := rfl
@[simp] theorem State.decSp_run (s : State) : (s.decSp).run = s.run := rfl
@[simp] theorem State.decSp_out (s : State) : (s.decSp).out = s.out := rfl
@[simp] theorem State.decSp_params (s : State) : (s.decSp).params = s.params := rfl

@[simp] theorem State.incSp_mem (s : State) : (s.incSp).mem = s.mem := rfl
@[simp] theorem State.incSp_regs (s : State) : (s.incSp).regs = s.regs.set Config.spIndex (s.sp + 1) := rfl
@[simp] theorem State.incSp_pc (s : State) : (s.incSp).pc = s.pc := rfl
@[simp] theorem State.incSp_fl (s : State) : (s.incSp).fl = s.fl := rfl
@[simp] theorem State.incSp_run (s : State) : (s.incSp).run = s.run := rfl
@[simp] theorem State.incSp_out (s : State) : (s.incSp).out = s.out := rfl
@[simp] theorem State.incSp_params (s : State) : (s.incSp).params = s.params := rfl

@[simp] theorem State.setFlags_reg (s : State) (f : Flags) (i : Fin 8) : (s.setFlags f).reg i = s.reg i := rfl
@[simp] theorem State.setFlags_sp (s : State) (f : Flags) : (s.setFlags f).sp = s.sp := rfl
@[simp] theorem State.advance_reg (s : State) (n : Nat) (i : Fin 8) : (s.advance n).reg i = s.reg i := rfl
@[simp] theorem State.advance_sp (s : State) (n : Nat) : (s.advance n).sp = s.sp := rfl
@[simp] theorem State.jump_reg (s : State) (v : Word) (i : Fin 8) : (s.jump v).reg i = s.reg i := rfl
@[simp] theorem State.jump_sp (s : State) (v : Word) : (s.jump v).sp = s.sp := rfl
@[simp] theorem State.halt_reg (s : State) (i : Fin 8) : (s.halt).reg i = s.reg i := rfl
@[simp] theorem State.halt_sp (s : State) : (s.halt).sp = s.sp := rfl
@[simp] theorem State.emit_reg (s : State) (e : Event) (i : Fin 8) : (s.emit e).reg i = s.reg i := rfl
@[simp] theorem State.emit_sp (s : State) (e : Event) : (s.emit e).sp = s.sp := rfl
@[simp] theorem State.raise_reg (s : State) (c : Cause) (i : Fin 8) : (s.raise c).reg i = s.reg i := rfl
@[simp] theorem State.raise_sp (s : State) (c : Cause) : (s.raise c).sp = s.sp := rfl
@[simp] theorem State.store_reg (s : State) (a : Nat) (v : Word) (i : Fin 8) : (s.store a v).reg i = s.reg i := rfl
@[simp] theorem State.store_sp (s : State) (a : Nat) (v : Word) : (s.store a v).sp = s.sp := rfl

/-- A register read after a register write. -/
theorem State.setReg_reg (s : State) (d i : Fin 8) (v : Word) :
    (s.setReg d v).reg i = if d = i then v else s.reg i := by
  simp [State.reg, State.setReg, Vector.getElem_set, Fin.ext_iff]

@[simp] theorem State.setReg_reg_same (s : State) (d : Fin 8) (v : Word) : (s.setReg d v).reg d = v := by
  simp [State.setReg_reg]

theorem State.setReg_reg_other (s : State) {d i : Fin 8} (v : Word) (h : d ≠ i) :
    (s.setReg d v).reg i = s.reg i := by
  simp [State.setReg_reg, h]

@[simp] theorem State.decSp_sp (s : State) : s.decSp.sp = s.sp - 1 := State.setReg_reg_same s _ _

@[simp] theorem State.incSp_sp (s : State) : s.incSp.sp = s.sp + 1 := State.setReg_reg_same s _ _

theorem State.decSp_reg_other (s : State) {i : Fin 8} (h : i ≠ 7) : s.decSp.reg i = s.reg i :=
  State.setReg_reg_other s _ (Ne.symm h)

theorem State.incSp_reg_other (s : State) {i : Fin 8} (h : i ≠ 7) : s.incSp.reg i = s.reg i :=
  State.setReg_reg_other s _ (Ne.symm h)

/-- The register an operand word in 0..7 names. -/
theorem State.regW_eq (s : State) {w : Word} {d : Fin 8} (h : w.toNat = d.val) : s.regW w = s.reg d := by
  have : (⟨w.toNat % 8, Nat.mod_lt _ (by decide)⟩ : Fin 8) = d := by ext; simp; omega
  simp [State.regW, this]

end Sys2Proof.Machine
end

