-- ==== Sys2Proof/Laws/Ops.lean ====
section
/-! SUPPORT. One lemma per shared operation that says what it answers. -/

namespace Sys2Proof.Machine

theorem Config.memSize_eq : Config.memSize = 256 := rfl
theorem Config.numRegs_eq : Config.numRegs = 8 := rfl
theorem Config.spIndex_eq : Config.spIndex = 7 := rfl
theorem Config.spReset_eq : Config.spReset = 0xF4#8 := rfl
@[simp] theorem Memory.unlisted_eq : Memory.unlisted = 0x00#8 := rfl

@[simp] theorem State.settle_ok (s t : State) : s.settle (.ok t) = .next t := rfl
@[simp] theorem State.settle_error (s : State) (c : Cause) : s.settle (.error c) = .next (s.raise c) := rfl

/-- Every instruction that ends by `settle` answers a next state. -/
theorem State.settle_next (s : State) (r : Except Cause State) : ∃ t, s.settle r = .next t := by
  cases r <;> simp

theorem State.regOperand_ok (s : State) {w : Word} (h : w.toNat < 8) :
    s.regOperand w = .ok ⟨w.toNat, h⟩ := by simp [State.regOperand, h]

theorem State.regOperand_error (s : State) {w : Word} (h : ¬ w.toNat < 8) :
    s.regOperand w = .error (.outOfBounds .reg w.toNat s.pc) := by simp [State.regOperand, h]

theorem State.memRead_ok (s : State) {a : Nat} (h : a < 256) : s.memRead a = .ok (Memory.read s.mem a) :=
  if_pos h

theorem State.memRead_error (s : State) {a : Nat} (h : ¬ a < 256) :
    s.memRead a = .error (.outOfBounds .mem a s.pc) :=
  if_neg h

theorem State.memWrite_ok (s : State) {a : Nat} (v : Word) (h : a < 256) :
    s.memWrite a v = .ok (s.store a v) :=
  if_pos h

theorem State.memWrite_error (s : State) {a : Nat} (v : Word) (h : ¬ a < 256) :
    s.memWrite a v = .error (.outOfBounds .mem a s.pc) :=
  if_neg h

/-- Storing at SP is always inside memory: SP is a word. -/
@[simp] theorem State.storeTop_eq (s : State) (v : Word) : s.storeTop v = .ok (s.store s.sp.toNat v) :=
  s.memWrite_ok v s.sp.isLt

/-- Loading at SP is always inside memory. -/
@[simp] theorem State.loadTop_eq (s : State) : s.loadTop = .ok (Memory.read s.mem s.sp.toNat) :=
  s.memRead_ok s.sp.isLt

/-- The push primitive, whole. -/
@[simp] theorem State.push_eq (s : State) (v : Word) : s.push v = .ok (s.decSp.store (s.sp - 1).toNat v) := by
  simp [State.push]

/-- The pop primitive, whole. -/
@[simp] theorem State.popWord_eq (s : State) : s.popWord = .ok (Memory.read s.mem s.sp.toNat, s.incSp) := by
  simp [State.popWord]

/-- Narrowing is reduction modulo 256. -/
theorem narrow_toNat (n : Int) : ((narrow n).toNat : Int) = n % 256 := by
  simp only [narrow, BitVec.toNat_ofInt]
  omega

/-- The result of ADD is bit-vector addition. -/
theorem narrow_add (x y : Word) : narrow (x.toNat + y.toNat) = x + y := by
  apply BitVec.eq_of_toNat_eq
  have := narrow_toNat (x.toNat + y.toNat)
  rw [BitVec.toNat_add]
  omega

/-- The result of SUB is bit-vector subtraction. -/
theorem narrow_sub (x y : Word) : narrow (x.toNat - y.toNat) = x - y := by
  apply BitVec.eq_of_toNat_eq
  have := narrow_toNat (x.toNat - y.toNat)
  have := x.isLt
  have := y.isLt
  rw [BitVec.toNat_sub]
  omega

/-- The result of MUL is bit-vector multiplication. -/
theorem narrow_mul (x y : Word) : narrow (x.toNat * y.toNat) = x * y := by
  apply BitVec.eq_of_toNat_eq
  have := narrow_toNat (x.toNat * y.toNat)
  rw [BitVec.toNat_mul]
  zify
  exact this

/-- CMP's flags by relation. -/
theorem Flags.compare_eq (x y : Word) :
    Flags.compare x y =
      ⟨decide (x.toNat = y.toNat), decide (x.toNat < y.toNat), decide (x.toNat > y.toNat)⟩ := by
  unfold Flags.compare
  rcases Nat.lt_trichotomy x.toNat y.toNat with h | h | h
  · simp [h, Nat.not_lt_of_gt h, Nat.ne_of_lt h]
  · simp [h]
  · simp [h, Nat.not_lt_of_gt h, Nat.ne_of_gt h]

theorem Flags.compare_exactlyOne (x y : Word) : (Flags.compare x y).exactlyOne = true := by
  unfold Flags.compare
  split_ifs <;> rfl

/-- Taking a fatal condition changes run and out only. -/
theorem State.raise_eq (s : State) (c : Cause) :
    s.raise c = { s with run := .fatal c, out := s.out ++ [.diag (.fatal c)] } := rfl

/-- The load of one image word more. -/
theorem State.loadFrom_cons (k : Nat) (w : Word) (ws : List Word) (s : State) :
    State.loadFrom k (w :: ws) s =
      if k < 256 then State.loadFrom (k + 1) ws (s.store k w) else s.raise (.outOfBounds .mem k s.pc) := by
  by_cases h : k < 256
  · rw [State.loadFrom, s.memWrite_ok w h, if_pos h]
  · rw [State.loadFrom, s.memWrite_error w h, if_neg h]

end Sys2Proof.Machine
end

