-- ==== Sys2Proof/Laws/Exec.lean ====
section
/-! SUPPORT. What an instruction can do, said once: `exec_cases`. It either performs, as one of the cases of
`Performed`, or takes one of the two conditions phases 4 and 5 know. -/

namespace Sys2Proof.Machine

/-- The state an instruction makes when it raises nothing, in terms of the shared operations; `d` and `e` are the
registers its operand words name. -/
inductive Performed (s : State) : Instr → State → Prop where
  | hlt : Performed s .hlt (s.advance 1).halt
  | ret : Performed s .ret (s.incSp.jump (Memory.read s.mem s.sp.toNat))
  | push (r : Word) (d : Fin 8) (h : r.toNat = d.val) :
      Performed s (.push r) ((s.decSp.store (s.sp - 1).toNat (s.decSp.reg d)).advance 2)
  | popEmpty (r : Word) (d : Fin 8) (h : r.toNat = d.val) (hs : s.sp = 0xF4) :
      Performed s (.pop r) ((s.emit (.diag (.emptyStackPop s.pc))).advance 2)
  | pop (r : Word) (d : Fin 8) (h : r.toNat = d.val) (hs : s.sp ≠ 0xF4) :
      Performed s (.pop r) ((s.setReg d (Memory.read s.mem s.sp.toNat)).incSp.advance 2)
  | prn (r : Word) (d : Fin 8) (h : r.toNat = d.val) :
      Performed s (.prn r) ((s.emit (.print (s.reg d))).advance 2)
  | call (r : Word) (d : Fin 8) (h : r.toNat = d.val) (hpc : s.pc + 2 ≤ 255) :
      Performed s (.call r)
        ((s.decSp.store (s.sp - 1).toNat (BitVec.ofNat 8 (s.pc + 2))).jump (s.decSp.reg d))
  | jmp (r : Word) (d : Fin 8) (h : r.toNat = d.val) : Performed s (.jmp r) (s.jump (s.reg d))
  | jeq (r : Word) (d : Fin 8) (h : r.toNat = d.val) :
      Performed s (.jeq r) (if s.fl.e then s.jump (s.reg d) else s.advance 2)
  | jne (r : Word) (d : Fin 8) (h : r.toNat = d.val) :
      Performed s (.jne r) (if s.fl.e then s.advance 2 else s.jump (s.reg d))
  | ldi (r imm : Word) (d : Fin 8) (h : r.toNat = d.val) : Performed s (.ldi r imm) ((s.setReg d imm).advance 3)
  | add (a b : Word) (d e : Fin 8) (ha : a.toNat = d.val) (hb : b.toNat = e.val) :
      Performed s (.add a b) ((s.setReg d (s.reg d + s.reg e)).advance 3)
  | sub (a b : Word) (d e : Fin 8) (ha : a.toNat = d.val) (hb : b.toNat = e.val) :
      Performed s (.sub a b) ((s.setReg d (s.reg d - s.reg e)).advance 3)
  | mul (a b : Word) (d e : Fin 8) (ha : a.toNat = d.val) (hb : b.toNat = e.val) :
      Performed s (.mul a b) ((s.setReg d (s.reg d * s.reg e)).advance 3)
  | cmp (a b : Word) (d e : Fin 8) (ha : a.toNat = d.val) (hb : b.toNat = e.val) :
      Performed s (.cmp a b) ((s.setFlags (Flags.compare (s.reg d) (s.reg e))).advance 3)
  | jgt (r : Word) (d : Fin 8) (h : r.toNat = d.val) :
      Performed s (.jgt r) (if s.fl.g then s.jump (s.reg d) else s.advance 2)
  | jlt (r : Word) (d : Fin 8) (h : r.toNat = d.val) :
      Performed s (.jlt r) (if s.fl.l then s.jump (s.reg d) else s.advance 2)

/-- Why an instruction took a condition instead: a register operand above 7, the first one, or CALL's return
address. -/
inductive Refused (s : State) (i : Instr) : Cause → Prop where
  | regOperand (w : Word) (h : i.regOperands.find? (fun v => decide (7 < v.toNat)) = some w) :
      Refused s i (.outOfBounds .reg w.toNat s.pc)
  | returnAddress (r : Word) (hi : i = .call r) (hr : r.toNat < 8) (hpc : 255 < s.pc + 2) :
      Refused s i (.outOfBounds .mem (s.pc + 2) s.pc)

/-- One register operand: it names a register, or it is the operand that is refused. -/
theorem regOperand_cases (s : State) (w : Word) :
    (∃ d : Fin 8, w.toNat = d.val ∧ s.regOperand w = .ok d) ∨
      (7 < w.toNat ∧ s.regOperand w = .error (.outOfBounds .reg w.toNat s.pc)) := by
  by_cases h : w.toNat < 8
  · exact .inl ⟨⟨w.toNat, h⟩, rfl, s.regOperand_ok h⟩
  · exact .inr ⟨by omega, s.regOperand_error h⟩

/-- An instruction of one register operand whose handler, given the register, answers a state. -/
theorem settle_reg_cases {s : State} {i : Instr} {w : Word} {k : Fin 8 → Except Cause State}
    (hi : i.regOperands = [w])
    (hk : ∀ d, w.toNat = d.val → (∃ t, k d = .ok t ∧ Performed s i t) ∨ ∃ c, k d = .error c ∧ Refused s i c) :
    (∃ t, s.settle (s.regOperand w >>= k) = .next t ∧ Performed s i t) ∨
      ∃ c, s.settle (s.regOperand w >>= k) = .next (s.raise c) ∧ Refused s i c := by
  rcases regOperand_cases s w with ⟨d, hd, he⟩ | ⟨hw, he⟩
  · rcases hk d hd with ⟨t, ht, hp⟩ | ⟨c, hc, hr⟩
    · exact .inl ⟨t, by rw [he]; exact congrArg s.settle ht, hp⟩
    · exact .inr ⟨c, by rw [he]; exact congrArg s.settle hc, hr⟩
  · exact .inr ⟨_, by rw [he]; rfl, .regOperand w (by simp [hi, hw])⟩

/-- An ALU instruction, from its operation's answer. -/
theorem settle_alu_cases {s : State} {i : Instr} {a b : Word} {op : AluOp} (hi : i.regOperands = [a, b])
    (hk : ∀ d e, a.toNat = d.val → b.toNat = e.val → ∃ t, s.alu op d e = .ok t ∧ Performed s i (t.advance 3)) :
    (∃ t, s.settle (s.aluInstr op a b) = .next t ∧ Performed s i t) ∨
      ∃ c, s.settle (s.aluInstr op a b) = .next (s.raise c) ∧ Refused s i c := by
  unfold State.aluInstr
  rcases regOperand_cases s a with ⟨d, hd, ha⟩ | ⟨hw, ha⟩
  · rcases regOperand_cases s b with ⟨e, he, hb⟩ | ⟨hw, hb⟩
    · obtain ⟨t, ht, hp⟩ := hk d e hd he
      exact .inl ⟨_, by rw [ha, hb]; simp only [bind, Except.bind, ht]; rfl, hp⟩
    · refine .inr ⟨_, by rw [ha, hb]; rfl, .regOperand b ?_⟩
      have : ¬ 7 < a.toNat := by omega
      simp [hi, hw, this]
  · exact .inr ⟨_, by rw [ha]; rfl, .regOperand a (by simp [hi, hw])⟩

/-- Everything an instruction can do: it performs, or it takes one condition and has no other effect. -/
theorem exec_cases (i : Instr) (s : State) :
    (∃ t, exec i s = .next t ∧ Performed s i t) ∨ ∃ c, exec i s = .next (s.raise c) ∧ Refused s i c := by
  cases i with
  | hlt => exact .inl ⟨_, rfl, .hlt⟩
  | ret => exact .inl ⟨_, by simp [exec, execRet, bind, Except.bind], .ret⟩
  | push r =>
    exact settle_reg_cases rfl fun d hd => .inl ⟨_, by simp [bind, Except.bind], .push r d hd⟩
  | pop r =>
    refine settle_reg_cases rfl fun d hd => .inl ?_
    by_cases hs : s.sp = 0xF4
    · exact ⟨_, if_pos hs, .popEmpty r d hd hs⟩
    · exact ⟨_, (if_neg hs).trans (by rw [State.loadTop_eq]; rfl), .pop r d hd hs⟩
  | prn r => exact settle_reg_cases rfl fun d hd => .inl ⟨_, rfl, .prn r d hd⟩
  | call r =>
    refine settle_reg_cases rfl fun d hd => ?_
    by_cases hpc : s.pc + 2 > 255
    · exact .inr ⟨_, by simp only [if_pos hpc], .returnAddress r rfl (by omega) hpc⟩
    · exact .inl ⟨_, by simp only [if_neg hpc, State.push_eq]; rfl, .call r d hd (by omega)⟩
  | jmp r => exact settle_reg_cases rfl fun d hd => .inl ⟨_, rfl, .jmp r d hd⟩
  | jeq r => exact settle_reg_cases rfl fun d hd => .inl ⟨_, rfl, .jeq r d hd⟩
  | jne r =>
    exact settle_reg_cases rfl fun d hd => .inl ⟨_, by cases s.fl.e <;> rfl, .jne r d hd⟩
  | ldi r imm => exact settle_reg_cases rfl fun d hd => .inl ⟨_, rfl, .ldi r imm d hd⟩
  | add a b =>
    exact settle_alu_cases rfl fun d e hd he => ⟨_, by simp only [State.alu, narrow_add], .add a b d e hd he⟩
  | sub a b =>
    exact settle_alu_cases rfl fun d e hd he => ⟨_, by simp only [State.alu, narrow_sub], .sub a b d e hd he⟩
  | mul a b =>
    exact settle_alu_cases rfl fun d e hd he => ⟨_, by simp only [State.alu, narrow_mul], .mul a b d e hd he⟩
  | cmp a b => exact settle_alu_cases rfl fun d e hd he => ⟨_, rfl, .cmp a b d e hd he⟩
  | jgt r => exact settle_reg_cases rfl fun d hd => .inl ⟨_, rfl, .jgt r d hd⟩
  | jlt r => exact settle_reg_cases rfl fun d hd => .inl ⟨_, rfl, .jlt r d hd⟩

/-- `exec_cases` for an answer at hand. -/
theorem exec_inv {i : Instr} {s t : State} (h : exec i s = .next t) :
    Performed s i t ∨ ∃ c, t = s.raise c ∧ Refused s i c := by
  rcases exec_cases i s with ⟨t', h', hp⟩ | ⟨c, h', hr⟩ <;> rw [h] at h' <;> cases h'
  · exact .inl hp
  · exact .inr ⟨c, rfl, hr⟩

/-- The register a word in 0..7 names. -/
theorem regOperand_of (s : State) {w : Word} {d : Fin 8} (h : w.toNat = d.val) : s.regOperand w = .ok d := by
  have hw : w.toNat < 8 := by omega
  rw [s.regOperand_ok hw]
  exact congrArg _ (Fin.ext h)

/-- Where an instruction performs, `exec` answers that state: the other direction of `exec_cases`. -/
theorem Performed.exec_eq {s t : State} {i : Instr} (h : Performed s i t) : exec i s = .next t := by
  cases h with
  | hlt => rfl
  | ret => simp [exec, execRet, bind, Except.bind]
  | push r d h => simp [exec, execPush, regOperand_of s h, bind, Except.bind]
  | popEmpty r d h hs =>
    simp only [exec, execPop, regOperand_of s h, bind, Except.bind]
    rw [if_pos (show s.sp = Config.spReset from hs)]
    rfl
  | pop r d h hs =>
    simp only [exec, execPop, regOperand_of s h, bind, Except.bind, State.loadTop_eq]
    rw [if_neg (show ¬ s.sp = Config.spReset from hs)]
    rfl
  | prn r d h => simp [exec, execPrn, regOperand_of s h, bind, Except.bind]
  | call r d h hpc =>
    simp only [exec, execCall, regOperand_of s h, bind, Except.bind, State.push_eq]
    rw [if_neg (by omega)]
    rfl
  | jmp r d h => simp [exec, execJmp, State.branchIf, regOperand_of s h, bind, Except.bind]
  | jeq r d h => simp [exec, execJeq, State.branchIf, regOperand_of s h, bind, Except.bind]
  | jne r d h =>
    simp only [exec, execJne, State.branchIf, regOperand_of s h, bind, Except.bind]
    cases s.fl.e <;> rfl
  | ldi r imm d h => simp [exec, execLdi, regOperand_of s h, bind, Except.bind]
  | add a b d e ha hb =>
    simp [exec, execAdd, State.aluInstr, State.alu, regOperand_of s ha, regOperand_of s hb, narrow_add, bind, Except.bind]
  | sub a b d e ha hb =>
    simp [exec, execSub, State.aluInstr, State.alu, regOperand_of s ha, regOperand_of s hb, narrow_sub, bind, Except.bind]
  | mul a b d e ha hb =>
    simp [exec, execMul, State.aluInstr, State.alu, regOperand_of s ha, regOperand_of s hb, narrow_mul, bind, Except.bind]
  | cmp a b d e ha hb =>
    simp [exec, execCmp, State.aluInstr, State.alu, regOperand_of s ha, regOperand_of s hb, bind, Except.bind]
  | jgt r d h => simp [exec, execJgt, State.branchIf, regOperand_of s h, bind, Except.bind]
  | jlt r d h => simp [exec, execJlt, State.branchIf, regOperand_of s h, bind, Except.bind]

/-- Only HLT changes the run state. -/
theorem Performed.run {s t : State} {i : Instr} (h : Performed s i t) :
    t.run = if i.op = .hlt then .halted else s.run := by
  cases h <;> simp only [Instr.op, reduceCtorEq, if_true, if_false] <;> first | rfl | (split <;> rfl)

theorem Performed.params {s t : State} {i : Instr} (h : Performed s i t) : t.params = s.params := by
  cases h <;> first | rfl | (split <;> rfl)

/-- Memory is as before, or one word was stored inside memory, by PUSH or CALL, at `storeAddress`. -/
theorem Performed.mem {s t : State} {i : Instr} (h : Performed s i t) :
    t.mem = s.mem ∨
      ∃ a v, a < 256 ∧ t.mem = Memory.write s.mem a v ∧ storeAddress i s = some a ∧ (i.op = .push ∨ i.op = .call) := by
  cases h with
  | push r d h => exact .inr ⟨_, _, (s.sp - 1).isLt, rfl, by simp [storeAddress], .inl rfl⟩
  | call r d h hpc => exact .inr ⟨_, _, (s.sp - 1).isLt, rfl, by simp [storeAddress], .inr rfl⟩
  | _ => left; first | rfl | (split <;> rfl)

/-- The flags are as before, or CMP wrote them. -/
theorem Performed.fl {s t : State} {i : Instr} (h : Performed s i t) :
    t.fl = s.fl ∨ (i.op = .cmp ∧ ∃ x y, t.fl = Flags.compare x y) := by
  cases h with
  | cmp a b d e ha hb => exact .inr ⟨rfl, _, _, rfl⟩
  | _ => left; first | rfl | (split <;> rfl)

/-- pc advanced by the width, or is a word. -/
theorem Performed.pc {s t : State} {i : Instr} (h : Performed s i t) :
    t.pc = s.pc + i.op.width ∨ t.pc < 256 := by
  cases h <;>
    first
    | exact .inl rfl
    | exact .inr (BitVec.isLt _)
    | (split <;> first | exact .inl rfl | exact .inr (BitVec.isLt _))

/-- The cell an instruction stores to holds the word it stores. -/
theorem Performed.read_stored {s t : State} {i : Instr} {a : Nat} {w : Word} (h : Performed s i t)
    (hm : Memory.wf s.mem) (ha : storeAddress i s = some a) (hw : storedWord i s = some w) :
    Memory.read t.mem a = w := by
  cases h <;> cases ha <;> cases hw
  case push r d h =>
    rw [s.decSp_sp, s.decSp.regW_eq h]
    exact Memory.read_write_same hm _ _
  case call r d h hpc =>
    rw [s.decSp_sp]
    exact Memory.read_write_same hm _ _

/-- A refused operand is above 7, so a well-formed instruction has none. -/
theorem Refused.wellFormed {s : State} {i : Instr} {c : Cause} (h : Refused s i c) (hi : i.wellFormed = true) :
    i.op = .call ∧ 255 < s.pc + 2 := by
  cases h with
  | regOperand w hw =>
    have hm := List.mem_of_find?_eq_some hw
    have h7 := List.find?_some hw
    have h8 : w.toNat < 8 := of_decide_eq_true (List.all_eq_true.1 hi w hm)
    exact absurd (of_decide_eq_true h7) (by omega)
  | returnAddress r hi hr hpc => subst hi; exact ⟨rfl, hpc⟩

/-- A condition an instruction takes carries its pc and is an OutOfBounds. -/
theorem Refused.outOfBounds {s : State} {i : Instr} {c : Cause} (h : Refused s i c) :
    ∃ sp n, c = .outOfBounds sp n s.pc := by
  cases h <;> exact ⟨_, _, rfl⟩

end Sys2Proof.Machine
end

