-- ==== Sys2Proof/Laws/PerInstr.lean ====
section
/-! SUPPORT. Family `Width`: the words of an instruction are its opcode and as many operand words as bits 7:6 of a
legal opcode say, one to three words in all (R70, R73). -/

namespace Sys2Proof.Laws.Width

/-- The encoding of `i` under any legal map has the width of its mnemonic, which is 1 + bits 7:6 of its opcode. -/
def Statement (i : Instr) : Prop :=
  ∀ p : Params, p.legal = true → p.present i.op = true →
    (encode p i).length = i.op.width ∧ i.op.width = 1 + (p.opmap.byte i.op).toNat / 64

/-- The one proof of the family: the length is a matter of the format, the high bits of the map's legality. -/
theorem of_length {i : Instr} (h : i.operandWords.length = i.op.operands) : Statement i := fun p hp hi => by
  refine ⟨by simp [encode, Op.width, h, Nat.add_comm], ?_⟩
  rw [Op.width, (Params.legal_spec hp hi).1]

theorem hlt : Statement .hlt := of_length rfl
theorem ret : Statement .ret := of_length rfl
theorem push (r : Word) : Statement (.push r) := of_length rfl
theorem pop (r : Word) : Statement (.pop r) := of_length rfl
theorem prn (r : Word) : Statement (.prn r) := of_length rfl
theorem call (r : Word) : Statement (.call r) := of_length rfl
theorem jmp (r : Word) : Statement (.jmp r) := of_length rfl
theorem jeq (r : Word) : Statement (.jeq r) := of_length rfl
theorem jne (r : Word) : Statement (.jne r) := of_length rfl
theorem ldi (r imm : Word) : Statement (.ldi r imm) := of_length rfl
theorem add (a b : Word) : Statement (.add a b) := of_length rfl
theorem sub (a b : Word) : Statement (.sub a b) := of_length rfl
theorem mul (a b : Word) : Statement (.mul a b) := of_length rfl
theorem cmp (a b : Word) : Statement (.cmp a b) := of_length rfl
theorem jgt (r : Word) : Statement (.jgt r) := of_length rfl
theorem jlt (r : Word) : Statement (.jlt r) := of_length rfl

end Sys2Proof.Laws.Width
end

