-- ==== Sys2Proof/Laws/Step.lean ====
section
/-! SUPPORT. What a step can do, said once: `step_cases`, over what a fetch can answer. -/

namespace Sys2Proof.Machine

/-- What a successful fetch read: the opcode of the instruction and its operand words, all inside memory. -/
theorem fetch_ok {s : State} {i : Instr} (h : s.fetch = .ok i) :
    s.pc + i.op.operands < 256 ∧ decodeOpcode s.params (Memory.read s.mem s.pc) = some i.op ∧
      ∀ k w, i.operandWords[k]? = some w → Memory.read s.mem (s.pc + 1 + k) = w := by
  have read_ok : ∀ {k w}, s.memRead (s.pc + k) = .ok w →
      s.pc + k < 256 ∧ Memory.read s.mem (s.pc + k) = w := by
    intro k w hk
    by_cases hlt : s.pc + k < 256
    · rw [s.memRead_ok hlt] at hk
      exact ⟨hlt, by simpa using hk⟩
    · rw [s.memRead_error hlt] at hk
      cases hk
  obtain ⟨b, h0, hb, hw⟩ := decodeFrom_ok h
  obtain ⟨hpc, rfl⟩ := read_ok h0
  have hw' : ∀ k w, i.operandWords[k]? = some w → s.pc + (k + 1) < 256 ∧ Memory.read s.mem (s.pc + 1 + k) = w :=
    fun k w hk => by
      have := read_ok (hw k w hk)
      rwa [show s.pc + (k + 1) = s.pc + 1 + k by omega] at this ⊢
  refine ⟨?_, hb, fun k w hk => (hw' k w hk).2⟩
  cases i with
  | hlt => exact hpc
  | ret => exact hpc
  | push r => exact (hw' 0 r rfl).1
  | pop r => exact (hw' 0 r rfl).1
  | prn r => exact (hw' 0 r rfl).1
  | call r => exact (hw' 0 r rfl).1
  | jmp r => exact (hw' 0 r rfl).1
  | jeq r => exact (hw' 0 r rfl).1
  | jne r => exact (hw' 0 r rfl).1
  | ldi r imm => exact (hw' 1 imm rfl).1
  | add a b => exact (hw' 1 b rfl).1
  | sub a b => exact (hw' 1 b rfl).1
  | mul a b => exact (hw' 1 b rfl).1
  | cmp a b => exact (hw' 1 b rfl).1
  | jgt r => exact (hw' 0 r rfl).1
  | jlt r => exact (hw' 0 r rfl).1

/-- Everything a fetch can answer, in terms of the words at pc. -/
theorem fetch_cases (s : State) :
    (255 < s.pc ∧ s.fetch = .error (.outOfBounds .mem s.pc s.pc)) ∨
    (s.pc ≤ 255 ∧ decodeOpcode s.params (Memory.read s.mem s.pc) = none ∧
      s.fetch = .error (.decodeError (Memory.read s.mem s.pc) s.pc)) ∨
    (∃ o, s.pc ≤ 255 ∧ decodeOpcode s.params (Memory.read s.mem s.pc) = some o ∧
      ((1 ≤ o.operands ∧ s.pc = 255 ∧ s.fetch = .error (.outOfBounds .mem (s.pc + 1) s.pc)) ∨
       (o.operands = 2 ∧ s.pc = 254 ∧ s.fetch = .error (.outOfBounds .mem (s.pc + 2) s.pc)) ∨
       (s.pc + o.operands ≤ 255 ∧
          s.fetch = .ok (o.instr (Memory.read s.mem (s.pc + 1)) (Memory.read s.mem (s.pc + 2)))))) := by
  by_cases hpc : s.pc < 256
  swap
  · refine .inl ⟨by omega, ?_⟩
    have : s.memRead (s.pc + 0) = .error (.outOfBounds .mem s.pc s.pc) := s.memRead_error hpc
    simp only [State.fetch, decodeFrom, this]
  have h0 : s.memRead (s.pc + 0) = .ok (Memory.read s.mem s.pc) := s.memRead_ok hpc
  cases hb : decodeOpcode s.params (Memory.read s.mem s.pc) with
  | none => exact .inr (.inl ⟨by omega, rfl, by simp only [State.fetch, decodeFrom, h0, hb]⟩)
  | some o =>
    refine .inr (.inr ⟨o, by omega, rfl, ?_⟩)
    have ho := o.operands_le
    have e1 := fun h => s.memRead_error (a := s.pc + 1) h
    have e2 := fun h => s.memRead_error (a := s.pc + 2) h
    have k1 := fun h => s.memRead_ok (a := s.pc + 1) h
    have k2 := fun h => s.memRead_ok (a := s.pc + 2) h
    by_cases h1 : 1 ≤ o.operands ∧ s.pc = 255
    · refine .inl ⟨h1.1, h1.2, ?_⟩
      have e1' := e1 (by omega)
      have : fetchOperands (fun k => s.memRead (s.pc + k)) o.operands = .error (.outOfBounds .mem (s.pc + 1) s.pc) := by
        obtain h | h : o.operands = 1 ∨ o.operands = 2 := by omega
        all_goals simp [h, fetchOperands, e1']
      simp only [State.fetch, decodeFrom, h0, hb, this]
    by_cases h2 : o.operands = 2 ∧ s.pc = 254
    · refine .inr (.inl ⟨h2.1, h2.2, ?_⟩)
      have : fetchOperands (fun k => s.memRead (s.pc + k)) o.operands = .error (.outOfBounds .mem (s.pc + 2) s.pc) := by
        simp [h2.1, fetchOperands, k1 (by omega), e2 (by omega)]
      simp only [State.fetch, decodeFrom, h0, hb, this]
    · refine .inr (.inr ⟨by omega, ?_⟩)
      obtain h | h | h : o.operands = 0 ∨ o.operands = 1 ∨ o.operands = 2 := by omega
      · have : fetchOperands (fun k => s.memRead (s.pc + k)) o.operands = .ok (0, 0) := by
          simp [h, fetchOperands]
        simp only [State.fetch, decodeFrom, h0, hb, this]
        cases o <;> first | rfl | (simp [Op.operands, Op.format, Format.operands] at h)
      · have : fetchOperands (fun k => s.memRead (s.pc + k)) o.operands = .ok (Memory.read s.mem (s.pc + 1), 0) := by
          simp [h, fetchOperands, k1 (by omega)]
        simp only [State.fetch, decodeFrom, h0, hb, this]
        cases o <;> first | rfl | (simp [Op.operands, Op.format, Format.operands] at h)
      · have : fetchOperands (fun k => s.memRead (s.pc + k)) o.operands =
            .ok (Memory.read s.mem (s.pc + 1), Memory.read s.mem (s.pc + 2)) := by
          simp [h, fetchOperands, k1 (by omega), k2 (by omega)]
        simp only [State.fetch, decodeFrom, h0, hb, this]

/-- A running machine whose fetch succeeds performs the instruction. -/
theorem step_of_fetch {s : State} {i : Instr} (hr : s.run = .running) (h : s.fetch = .ok i) : step s = exec i s := by
  simp [step, State.beginStep, hr, h]

/-- A running machine whose fetch raises takes the condition. -/
theorem step_of_fetch_error {s : State} {c : Cause} (hr : s.run = .running) (h : s.fetch = .error c) :
    step s = .next (s.raise c) := by
  simp [step, State.beginStep, hr, h]

/-- Everything a step that answers a next state can have done. -/
theorem step_cases {s t : State} (h : step s = .next t) :
    s.run = .running ∧
      ((∃ i, s.fetch = .ok i ∧ exec i s = .next t) ∨ ∃ c, s.fetch = .error c ∧ t = s.raise c) := by
  have hr : s.run = .running := by
    cases hr : s.run <;> simp [step, State.beginStep, hr] at h ⊢
  refine ⟨hr, ?_⟩
  cases hf : s.fetch with
  | ok i => exact .inl ⟨i, rfl, by rw [← h, step_of_fetch hr hf]⟩
  | error c =>
    rw [step_of_fetch_error hr hf] at h
    exact .inr ⟨c, rfl, by cases h; rfl⟩

end Sys2Proof.Machine
end

