-- ==== Sys2Proof/Tests/Slice0.lean ====
section
/-! SUPPORT. The model's own tests: well-formedness, decoding of words written out from the spec's table, one step on
small states (95_test_vectors.md, by vector id), and a witness for the hypotheses of every statement. -/

namespace Sys2Proof.Tests

open Sys2Proof.Machine

/-! ## Well-formedness (R74, R75) -/

theorem test_wellFormed_refuses_first_operand_8 :
    [Instr.push 8, .pop 8, .prn 8, .call 8, .jmp 8, .jeq 8, .jne 8, .ldi 8 0, .add 8 0, .sub 8 0, .mul 8 0, .cmp 8 0,
      .jgt 8, .jlt 8].all (fun i => !i.wellFormed) = true := by decide

theorem test_wellFormed_refuses_second_operand_8 :
    [Instr.add 0 8, .sub 0 8, .mul 0 8, .cmp 0 8].all (fun i => !i.wellFormed) = true := by decide

theorem test_wellFormed_accepts_7_and_any_immediate :
    [Instr.hlt, .ret, .push 7, .add 7 7, .ldi 7 255].all Instr.wellFormed = true := by decide

/-! ## Decoding: the opcode byte in bits 7:0, then the operand words (R71, R76; section 2.2 of 95) -/

theorem test_decode_hlt : decodeTableWord 8 0b00000001 = some .hlt := by decide
theorem test_decode_ret : decodeTableWord 8 0b00010001 = some .ret := by decide
theorem test_decode_push : decodeTableWord 16 0b00000011_01000101 = some (.push 3) := by decide
theorem test_decode_pop : decodeTableWord 16 0b00000000_01000110 = some (.pop 0) := by decide
theorem test_decode_prn : decodeTableWord 16 0b00000111_01000111 = some (.prn 7) := by decide
theorem test_decode_call : decodeTableWord 16 0b00000001_01010000 = some (.call 1) := by decide
theorem test_decode_jmp : decodeTableWord 16 0b00000010_01010100 = some (.jmp 2) := by decide
theorem test_decode_jeq : decodeTableWord 16 0b00000010_01010101 = some (.jeq 2) := by decide
theorem test_decode_jne : decodeTableWord 16 0b00000010_01010110 = some (.jne 2) := by decide
theorem test_decode_ldi : decodeTableWord 24 0b10000010_00000001_10000010 = some (.ldi 1 0x82) := by decide
theorem test_decode_add : decodeTableWord 24 0b00000001_00000000_10100000 = some (.add 0 1) := by decide
theorem test_decode_sub : decodeTableWord 24 0b00000011_00000010_10100001 = some (.sub 2 3) := by decide
theorem test_decode_mul : decodeTableWord 24 0b00000001_00000000_10100010 = some (.mul 0 1) := by decide
theorem test_decode_cmp : decodeTableWord 24 0b00000001_00000000_10100111 = some (.cmp 0 1) := by decide
theorem test_decode_jgt : decodeTableWord 16 0b00000010_01010111 = some (.jgt 2) := by decide
theorem test_decode_jlt : decodeTableWord 16 0b00000010_01011000 = some (.jlt 2) := by decide

/-- The illegal neighbours of section 2.2. -/
theorem test_decode_neighbours_are_undefined :
    [0x00#8, 0x02, 0x10, 0x41, 0x44, 0x48, 0x51, 0x53, 0x57, 0x58, 0x81, 0x83, 0xA3, 0xA6, 0xA8, 0xC0, 0xFF].all
      (fun b => (decodeOpcode Params.default b).isNone) = true := by decide

/-! ## Steps -/

/-- The reset state with some code at pc. -/
def start (pc : Nat) (code : List Word) : State :=
  { State.reset with pc := pc, mem := Memory.place [] pc code }

/-- The next state of a step has a property. -/
def nextIs (s : State) (f : State → Bool) : Bool :=
  match step s with
  | .next t => f t
  | .fault _ => false
  | .refused _ => false

/-- The step takes this fatal condition, with one diagnostic, and changes nothing else (R196). -/
def raises (s : State) (c : Cause) : Bool :=
  nextIs s fun t => t == { s with run := .fatal c, out := s.out ++ [.diag (.fatal c)] }

theorem test_ldi_T5 : nextIs (start 0xFD [0x82, 0x01, 0x7F]) (fun t => t.reg 1 == 0x7F && t.pc == 256) = true := by decide
theorem test_ldi_T3 : nextIs (start 0 [0x82, 0x07, 0x10]) (fun t => t.sp == 0x10 && t.pc == 3) = true := by decide
theorem test_prn_T7 : nextIs (start 0 [0x47, 7]) (fun t => t.out == [.print 244] && t.pc == 2) = true := by decide
theorem test_prn_T8 :
    nextIs ((start 0 [0x47, 2]).setReg 2 0xFF) (fun t => t.out == [.print 255] && t.reg 2 == 0xFF) = true := by decide

theorem test_add_T20 :
    nextIs (((start 0 [0xA0, 0, 1]).setReg 0 0xC8).setReg 1 0x64) (fun t => t.reg 0 == 0x2C && t.reg 1 == 0x64 && t.pc == 3)
      = true := by decide
theorem test_add_T22 : nextIs ((start 0 [0xA0, 2, 2]).setReg 2 0x90) (fun t => t.reg 2 == 0x20) = true := by decide
theorem test_sub_T25 :
    nextIs (((start 0 [0xA1, 0, 1]).setReg 0 0x05).setReg 1 0x0A) (fun t => t.reg 0 == 0xFB && t.pc == 3) = true := by decide
theorem test_sub_T28 : nextIs ((start 0 [0xA1, 0, 7]).setReg 0 0xF4) (fun t => t.reg 0 == 0 && t.sp == 0xF4) = true := by decide
theorem test_mul_T29 :
    nextIs (((start 0 [0xA2, 0, 1]).setReg 0 0xC8).setReg 1 0x64) (fun t => t.reg 0 == 0x20 && t.pc == 3) = true := by decide
theorem test_mul_T32 : nextIs ((start 0 [0xA2, 3, 3]).setReg 3 0xFF) (fun t => t.reg 3 == 0x01) = true := by decide
theorem test_cmp_T37 :
    nextIs (((start 0 [0xA7, 0, 1]).setReg 0 0x80).setReg 1 0x7F) (fun t => t.fl.toByte == 0b010 && t.reg 0 == 0x80)
      = true := by decide
theorem test_cmp_T38 :
    nextIs (((start 0 [0xA7, 0, 1]).setReg 1 0xFF).setFlags ⟨true, false, false⟩) (fun t => t.fl.toByte == 0b100)
      = true := by decide

theorem test_push_T50 :
    nextIs ((start 0 [0x45, 0]).setReg 0 0x2A)
      (fun t => t.sp == 0xF3 && Memory.read t.mem 0xF3 == 0x2A && Memory.read t.mem 0xF4 == 0 && t.pc == 2) = true := by decide
theorem test_push_T51 :
    nextIs (start 0 [0x45, 7]) (fun t => t.sp == 0xF3 && Memory.read t.mem 0xF3 == 0xF3) = true := by decide
theorem test_pop_T59 :
    nextIs (((start 0 [0x46, 7]).setReg 7 0xF3).store 0xF3 0x20) (fun t => t.sp == 0x21 && t.pc == 2) = true := by decide
theorem test_pop_T56 :
    nextIs ((start 0 [0x46, 1]).setReg 1 0x99)
      (fun t => t.reg 1 == 0x99 && t.sp == 0xF4 && t.pc == 2 && t.out == [.diag (.emptyStackPop 0)] && t.run == .running)
      = true := by decide

theorem test_call_T71 :
    nextIs ((start 0xFD [0x50, 1]).setReg 1 0x18) (fun t => t.sp == 0xF3 && Memory.read t.mem 0xF3 == 0xFF && t.pc == 0x18)
      = true := by decide
theorem test_call_T73 :
    nextIs (start 0 [0x50, 7]) (fun t => t.sp == 0xF3 && Memory.read t.mem 0xF3 == 2 && t.pc == 0xF3) = true := by decide
theorem test_ret_T78 :
    nextIs ((start 0x20 [0x11]).store 0xF4 0x30) (fun t => t.sp == 0xF5 && t.pc == 0x30 && t.out == []) = true := by decide
theorem test_ret_T79 :
    nextIs ((start 0xFF [0x11]).setReg 7 0xFF) (fun t => t.sp == 0 && t.pc == 0x11) = true := by decide
theorem test_jmp_T83 : nextIs ((start 0xFE [0x54, 0]).setReg 0 0xFF) (fun t => t.pc == 0xFF) = true := by decide
theorem test_jmp_T82 : nextIs (start 0 [0x54, 7]) (fun t => t.pc == 0xF4) = true := by decide
theorem test_jeq_T84 :
    nextIs (((start 0 [0x55, 2]).setReg 2 0x30).setFlags ⟨true, false, false⟩) (fun t => t.pc == 0x30 && t.fl.e)
      = true := by decide
theorem test_jeq_T88 :
    nextIs (((start 0xFE [0x55, 2]).setReg 2 0x30).setFlags ⟨false, false, true⟩) (fun t => t.pc == 256) = true := by decide
theorem test_jne_T92 : nextIs ((start 0 [0x56, 2]).setReg 2 0x30) (fun t => t.pc == 0x30) = true := by decide
theorem test_jne_T89 :
    nextIs (((start 0 [0x56, 2]).setReg 2 0x30).setFlags ⟨true, false, false⟩) (fun t => t.pc == 2) = true := by decide

/-- A small machine built with `EXT_JGT_JLT` on (the vectors at the end of section 3.4). -/
def startExt (code : List Word) (f : Flags) : State :=
  { ((start 0 code).setReg 2 0x30).setFlags f with params := Params.allRows }

theorem test_jgt_taken_on_greater : nextIs (startExt [0x57, 2] ⟨false, false, true⟩) (fun t => t.pc == 0x30) = true := by decide
theorem test_jgt_not_taken_on_less : nextIs (startExt [0x57, 2] ⟨false, true, false⟩) (fun t => t.pc == 2) = true := by decide
theorem test_jlt_taken_on_less : nextIs (startExt [0x58, 2] ⟨false, true, false⟩) (fun t => t.pc == 0x30) = true := by decide
theorem test_jlt_not_taken_on_greater : nextIs (startExt [0x58, 2] ⟨false, false, true⟩) (fun t => t.pc == 2) = true := by decide

theorem test_hlt_T101 : nextIs (start 0xFF [0x01]) (fun t => t.pc == 256 && t.run == .halted && t.out == []) = true := by decide
theorem test_no_step_after_hlt : (step { State.reset with run := .halted }) = .fault .halted := rfl

/-! ## Fatal vectors (section 4 of 95) -/

theorem test_F1 : raises State.reset (.decodeError 0x00 0) = true := by decide
theorem test_F3_F4 : (raises (start 0 [0x57, 0]) (.decodeError 0x57 0) && raises (start 0 [0x58, 0]) (.decodeError 0x58 0))
    = true := by decide
theorem test_F10 : raises (start 256 []) (.outOfBounds .mem 256 256) = true := by decide
theorem test_F11_F12 :
    (raises (start 0xFF [0x82]) (.outOfBounds .mem 256 255) && raises (start 0xFE [0x82, 0]) (.outOfBounds .mem 256 254))
      = true := by decide
theorem test_F17_F18 :
    (raises (start 0 [0x47, 0xFF]) (.outOfBounds .reg 255 0) && raises (start 0 [0xA0, 8, 9]) (.outOfBounds .reg 8 0))
      = true := by decide
theorem test_F19 : raises ((start 0 [0xA0, 0, 8]).setReg 0 1) (.outOfBounds .reg 8 0) = true := by decide
theorem test_F22 : raises (start 0 [0x46, 8]) (.outOfBounds .reg 8 0) = true := by decide
theorem test_F26 :
    raises ((start 0 [0x56, 0x80]).setFlags ⟨true, false, false⟩) (.outOfBounds .reg 128 0) = true := by decide
theorem test_F27_F28_F29 :
    (raises (start 0xFF [0xFF]) (.decodeError 0xFF 255) && raises (start 0xFE [0x82, 9]) (.outOfBounds .mem 256 254) &&
      raises (start 0xFE [0x50, 9]) (.outOfBounds .reg 9 254)) = true := by decide
theorem test_T72 : raises ((start 0xFE [0x50, 1]).setReg 1 0x18) (.outOfBounds .mem 256 254) = true := by decide

/-! ## Load, output, a word placed for the next step -/

theorem test_launch_P1 : (State.launch [0x82, 0, 8]).mem = [(0, 0x82#8), (2, 0x08#8)] := by decide
theorem test_render_print_72 : (Event.print 72).render = some "72\n" := by decide
theorem test_withFetchWord_jlt :
    nextIs (State.reset.withFetchWord 16 0x58) (fun t => t.pc == 2 && t.run == .running) = true := by decide

/-! ## Witnesses: for every statement with hypotheses, a state and operands that meet them all -/

/-- A legal map other than the default: JGT and JLT have each other's byte. -/
def swapped : Params := { Params.allRows with opmap := { OpMap.ls8 with jgt := 0x58, jlt := 0x57 } }

theorem witness_DecodeOfEncodeIsTheInstruction :
    Params.default.legal = true ∧ Params.default.present (Instr.ldi 1 0x82).op = true ∧
      swapped.legal = true ∧ swapped.present (Instr.jgt 7).op = true := by decide

theorem witness_EncodeOfDecodeIsTheWords : decode Params.default [0x82, 1, 0x82, 9] = .ok (.ldi 1 0x82, [9]) := rfl

theorem witness_OpcodeDecodeIsExactMatch :
    Params.default.legal = true ∧ decodeOpcode Params.default 0xA7 = some .cmp ∧
      decodeOpcode Params.default 0x00 = none := by decide

theorem witness_OpcodeHighBitsGiveTheLength :
    Params.default.legal = true ∧ decode Params.default (0x82 :: [1, 5]) = .ok (.ldi 1 5, []) := ⟨by decide, rfl⟩

theorem witness_OptionalRowsFollowTheirParameters :
    Params.default.legal = true ∧ Params.allRows.legal = true ∧ { Params.default with hasSub := false }.legal = true := by
  decide

theorem witness_StepRunsTheDecodedInstruction :
    (start 253 [0x82, 1, 0x7F]).run = .running ∧
      decode (start 253 [0x82, 1, 0x7F]).params
        ((List.range (256 - 253)).map (start 253 [0x82, 1, 0x7F]).wordAhead) = .ok (.ldi 1 0x7F, []) := ⟨rfl, rfl⟩

theorem witness_StepRunsTheInstructionInMemory :
    (start 254 [0x47, 7]).run = .running ∧ (start 254 [0x47, 7]).params.legal = true ∧
      (start 254 [0x47, 7]).params.present (Instr.prn 7).op = true ∧
      ∀ (k : Nat) (w : Word), (encode (start 254 [0x47, 7]).params (.prn 7))[k]? = some w →
        (start 254 [0x47, 7]).memRead ((start 254 [0x47, 7]).pc + k) = .ok w := by
  refine ⟨rfl, by decide, rfl, fun k w h => ?_⟩
  match k with
  | 0 => cases h; rfl
  | 1 => cases h; rfl
  | k + 2 => cases h

theorem witness_StepExistsExactlyWhileRunning :
    State.reset.run = .running ∧ ({ State.reset with run := .halted } : State).run = .halted ∧
      ({ State.reset with run := .fatal (.decodeError 0 0) } : State).run = .fatal (.decodeError 0 0) := ⟨rfl, rfl, rfl⟩

theorem witness_OpcodeFetchBeyondMemoryIsFatal : (start 256 []).run = .running ∧ (start 256 []).pc = 256 := ⟨rfl, rfl⟩

theorem witness_UndefinedOpcodeIsDecodeError :
    (start 255 [0xFF]).run = .running ∧ (start 255 [0xFF]).memRead (start 255 [0xFF]).pc = .ok 0xFF ∧
      decodeOpcode (start 255 [0xFF]).params 0xFF = none := ⟨rfl, rfl, rfl⟩

theorem witness_OperandFetchBeyondMemoryIsFatal :
    ((start 255 [0x47]).run = .running ∧ (start 255 [0x47]).memRead 255 = .ok 0x47 ∧
      decodeOpcode (start 255 [0x47]).params 0x47 = some .prn ∧ 1 ≤ Op.prn.operands) ∧
    ((start 254 [0x82, 0]).run = .running ∧ (start 254 [0x82, 0]).memRead 254 = .ok 0x82 ∧
      decodeOpcode (start 254 [0x82, 0]).params 0x82 = some .ldi ∧ Op.ldi.operands = 2) :=
  ⟨⟨rfl, rfl, rfl, by decide⟩, ⟨rfl, rfl, rfl, rfl⟩⟩

theorem witness_RegisterOperandAboveSevenIsFatal :
    (Instr.add 0 8).regOperands.find? (fun v => decide (7 < v.toNat)) = some 8 ∧
      (Instr.cmp 9 8).regOperands.find? (fun v => decide (7 < v.toNat)) = some 9 ∧
      (Instr.prn 255).regOperands.find? (fun v => decide (7 < v.toNat)) = some 255 := by decide

/-- One state per cause of R198, at the boundary of its range, and one with no cause. -/
theorem witness_FirstFatalCauseIsReported :
    (start 256 []).fatalCauses.head? = some (.outOfBounds .mem 256 256) ∧
      (start 255 [0xFF]).fatalCauses.head? = some (.decodeError 0xFF 255) ∧
      (start 255 [0x82]).fatalCauses.head? = some (.outOfBounds .mem 256 255) ∧
      (start 254 [0x82, 9]).fatalCauses.head? = some (.outOfBounds .mem 256 254) ∧
      (start 253 [0xA0, 8, 9]).fatalCauses.head? = some (.outOfBounds .reg 8 253) ∧
      (start 253 [0xA0, 7, 8]).fatalCauses.head? = some (.outOfBounds .reg 8 253) ∧
      (start 254 [0x50, 7]).fatalCauses.head? = some (.outOfBounds .mem 256 254) ∧
      (start 253 [0x82, 7, 255]).fatalCauses.head? = none := by decide

theorem witness_FatalStepChangesOnlyRunAndOutput :
    step State.reset = .next (State.reset.raise (.decodeError 0 0)) ∧
      (State.reset.raise (.decodeError 0 0)).run = .fatal (.decodeError 0 0) := ⟨rfl, rfl⟩

/-- A step of each kind of RunStateTransitions: going on, halting, raising. -/
theorem witness_RunStateTransitions :
    nextIs (start 0 [0x47, 0]) (fun t => t.run == .running) = true ∧
      nextIs (start 255 [0x01]) (fun t => t.run == .halted) = true ∧
      step State.reset = .next (State.reset.raise (.decodeError 0 0)) := ⟨by decide, by decide, rfl⟩

theorem witness_WellFormedInstructionsComplete :
    (Instr.call 7).wellFormed = true ∧ (start 253 []).pc + 2 ≤ 255 ∧ (Instr.cmp 7 0).wellFormed = true := by decide

theorem witness_UnsupportedOperationIsUnreachable :
    step State.reset = .next (State.reset.raise (.decodeError 0 0)) := rfl

theorem inv_start_hlt : (start 255 [0x01]).Inv where
  mem_wf := by decide
  pc_le := by decide
  flags := rfl
  halted := fun h => by cases h
  fatal := fun c h => by cases h

theorem witness_EveryStepKeepsTheInvariant :
    (start 255 [0x01]).Inv ∧ step (start 255 [0x01]) = .next ((start 255 [0x01]).advance 1).halt := ⟨inv_start_hlt, rfl⟩

theorem witness_EveryReachableStateSatisfiesTheInvariant :
    Reachable Params.allRows ((State.construct Params.allRows 0xFF ⟨false, true, false⟩).load [0x01]) :=
  .launch 0xFF _ rfl [0x01]

theorem witness_LoadWritesTheImageOnly :
    Memory.wf State.reset.mem ∧ (List.replicate 256 (1 : Word)).length ≤ 256 :=
  ⟨Memory.wf_nil, List.length_replicate.le⟩

theorem witness_OversizeImageIsFatalAtLoad :
    256 < (List.replicate 257 (1 : Word)).length ∧ (List.replicate 257 (1 : Word))[255]? = some 1 :=
  ⟨by rw [List.length_replicate]; decide, by rw [List.getElem?_replicate]; decide⟩

theorem witness_CanonicalMemoriesThatReadAlikeAreEqual :
    Memory.wf [(0, 1#8), (255, 2#8)] ∧ ∀ a, Memory.read [(0, 1#8), (255, 2#8)] a = Memory.read [(0, 1#8), (255, 2#8)] a :=
  ⟨by decide, fun _ => rfl⟩

theorem witness_OnlyCmpWritesTheFlags :
    exec (.ldi 0 5) State.reset = .next ((State.reset.setReg 0 5).advance 3) ∧ (Instr.ldi 0 5).op ≠ .cmp := ⟨rfl, by decide⟩

/-- A JEQ with flags that differ in L and G only, and a well-formed CMP. -/
theorem witness_OnlyConditionalJumpsReadTheFlags :
    (exec (.jeq 0) State.reset = .next (State.reset.advance 2) ∧
      (⟨false, true, true⟩ : Flags).e = State.reset.fl.e ∧ (Instr.jeq 0).op ≠ .jgt ∧ (Instr.jeq 0).op ≠ .jlt) ∧
    (exec (.cmp 7 7) State.reset = .next ((State.reset.setFlags ⟨true, false, false⟩).advance 3) ∧
      (Instr.cmp 7 7).wellFormed = true) := ⟨⟨rfl, rfl, by decide, by decide⟩, ⟨rfl, by decide⟩⟩

/-- A PUSH and an address beside the one stored to; an LDI, which stores nowhere. -/
theorem witness_MemoryFrame :
    (exec (.push 0) (State.reset.setReg 0 5) =
        .next (((State.reset.setReg 0 5).decSp.store 0xF3 5).advance 2) ∧
      storeAddress (.push 0) (State.reset.setReg 0 5) = some 0xF3 ∧ storeAddress (.push 0) State.reset ≠ some 0xF4) ∧
    (exec (.ldi 0 5) State.reset = .next ((State.reset.setReg 0 5).advance 3) ∧
      (Instr.ldi 0 5).op ≠ .push ∧ (Instr.ldi 0 5).op ≠ .call) :=
  ⟨⟨rfl, by decide, by decide⟩, ⟨rfl, by decide, by decide⟩⟩

theorem witness_RegisterFrame :
    exec (.ldi 0 5) State.reset = .next ((State.reset.setReg 0 5).advance 3) ∧
      ∀ w ∈ writtenRegs (.ldi 0 5) State.reset, w.toNat ≠ (7 : Fin 8).val := ⟨rfl, by decide⟩

theorem witness_OutputGrowsOnlyByItsEvents :
    exec (.prn 7) State.reset = .next ((State.reset.emit (.print 0xF4)).advance 2) ∧
      exec (.pop 1) State.reset = .next ((State.reset.emit (.diag (.emptyStackPop 0))).advance 2) := ⟨rfl, rfl⟩

theorem witness_OutputIsNeverRead : step (start 0 [0x54, 7]) = .next ((start 0 [0x54, 7]).jump 0xF4) := rfl

theorem witness_BuildParametersNeverChange : step (start 0 [0x54, 7]) = .next ((start 0 [0x54, 7]).jump 0xF4) := rfl

theorem witness_NextPcIsAsTheTableSays :
    State.reset.run = .running ∧ exec (.jmp 7) State.reset = .next (State.reset.jump 0xF4) ∧
      ¬ (State.reset.jump 0xF4).Crashed ∧
      exec (.jmp 8) State.reset = .next (State.reset.raise (.outOfBounds .reg 8 0)) ∧
      (State.reset.raise (.outOfBounds .reg 8 0)).Crashed :=
  ⟨rfl, rfl, (fun ⟨_, h⟩ => by cases h), rfl, ⟨_, rfl⟩⟩

theorem witness_PcReaches256OnlySequentially :
    (start 253 [0x82, 1, 0x7F]).pc ≤ 256 ∧
      step (start 253 [0x82, 1, 0x7F]) = .next (((start 253 [0x82, 1, 0x7F]).setReg 1 0x7F).advance 3) ∧
      (((start 253 [0x82, 1, 0x7F]).setReg 1 0x7F).advance 3).pc = 256 := ⟨by decide, rfl, rfl⟩

/-- The operand hypotheses of the result statements, at the largest register (LDI, PRN, JMP, JEQ, JNE, JGT, JLT with one
operand; ADD, SUB, MUL, CMP with two). -/
theorem witness_LdiResult : (7 : Word).toNat < 8 := by decide
theorem witness_PrnResult : (7 : Word).toNat < 8 := by decide
theorem witness_AddResult : (7 : Word).toNat < 8 ∧ (7 : Word).toNat < 8 := by decide
theorem witness_SubResult : (7 : Word).toNat < 8 ∧ (0 : Word).toNat < 8 := by decide
theorem witness_MulResult : (0 : Word).toNat < 8 ∧ (7 : Word).toNat < 8 := by decide
theorem witness_CmpResult : (7 : Word).toNat < 8 ∧ (7 : Word).toNat < 8 := by decide
theorem witness_JmpResult : (7 : Word).toNat < 8 := by decide
theorem witness_JeqJneResult : (7 : Word).toNat < 8 := by decide
theorem witness_JgtJltResult : (7 : Word).toNat < 8 := by decide

theorem witness_CompareThenJumpTable :
    (exec (.cmp 0 7) State.reset = .next ((State.reset.setFlags ⟨false, true, false⟩).advance 3) ∧
      (0 : Word).toNat < 8 ∧ (7 : Word).toNat < 8) ∧
    State.reset.fl = State.reset.fl := ⟨⟨rfl, by decide, by decide⟩, rfl⟩

theorem witness_PushResult : (7 : Word).toNat < 8 ∧ Memory.wf (start 4 [0x45, 7]).mem := by decide

theorem witness_PopResult :
    (7 : Word).toNat < 8 ∧ (State.reset.setReg 7 0xF3).sp ≠ 0xF4 ∧ (State.reset.setReg 7 0xF5).sp ≠ 0xF4 := by decide

theorem witness_EmptyStackPopOnlyReports : (7 : Word).toNat < 8 ∧ State.reset.sp = 0xF4 := by decide

theorem witness_CallResult :
    (7 : Word).toNat < 8 ∧ Memory.wf (start 253 [0x50, 7]).mem ∧ (start 253 [0x50, 7]).pc + 2 ≤ 255 := by decide

theorem witness_CallAt254IsFatal : (7 : Word).toNat < 8 ∧ (start 254 [0x50, 7]).pc = 254 := by decide

/-- The state after a CALL from 253 with SP = 0xF5, the case of R160's corner cases. -/
theorem witness_CallRetRoundTrip :
    let s := (start 253 [0x50, 1]).setReg 7 0xF5
    let t := (s.decSp.store 0xF4 0xFF).jump 0
    Memory.wf s.mem ∧ (1 : Word).toNat < 8 ∧ s.pc ≤ 253 ∧ exec (.call 1) s = .next t ∧ t.sp = s.sp - 1 :=
  ⟨by decide, by decide, by decide, rfl, rfl⟩

/-- From reset, 255 pushes of R6: no POP meets SP = 0xF4. -/
theorem witness_PopsReturnThePushedWords :
    Memory.wf State.reset.mem ∧ (List.replicate 255 (6 : Word)).length ≤ 255 ∧
      (∀ r ∈ List.replicate 255 (6 : Word), r.toNat < 7) ∧
      ∀ k, 1 ≤ k → k ≤ (List.replicate 255 (6 : Word)).length → State.reset.sp - BitVec.ofNat 8 k ≠ 0xF4 := by
  refine ⟨Memory.wf_nil, List.length_replicate.le, fun r h => by rw [(List.mem_replicate.1 h).2]; decide, fun k h1 h2 h => ?_⟩
  have hsp : State.reset.sp.toNat = 244 := rfl
  have := congrArg BitVec.toNat h
  rw [List.length_replicate] at h2
  rw [BitVec.toNat_sub, BitVec.toNat_ofNat, hsp] at this
  have h4 : (0xF4 : Word).toNat = 244 := rfl
  omega

/-- Program P8's third step: PUSH R0 at 6 with SP = 9 and R0 = 0x01 writes HLT over the word at 8, where the next step
fetches its opcode. -/
theorem witness_StoredWordsAreWhatLaterFetchesRead_push :
    let s := ((start 6 [0x45, 0, 0xFF]).setReg 7 9).setReg 0 1
    let t := (s.decSp.store 8 1).advance 2
    Memory.wf s.mem ∧ s.run = .running ∧ s.fetch = .ok (.push 0) ∧ (Instr.push 0).wellFormed = true ∧
      storeAddress (.push 0) s = some 8 ∧ storedWord (.push 0) s = some 1 ∧
      step s = .next t ∧ t.run = .running ∧ t.pc = 8 ∧ decodeOpcode t.params 1 = some .hlt :=
  ⟨by decide, rfl, rfl, rfl, rfl, rfl, rfl, rfl, rfl, rfl⟩

/-- CALL R1 at 253 with SP = 0 writes 0xFF at 255 and goes there: an undefined opcode in the last cell. -/
theorem witness_StoredWordsAreWhatLaterFetchesRead_call :
    let s := ((start 253 [0x50, 1]).setReg 7 0).setReg 1 255
    let t := (s.decSp.store 255 0xFF).jump 255
    Memory.wf s.mem ∧ s.run = .running ∧ s.fetch = .ok (.call 1) ∧ (Instr.call 1).wellFormed = true ∧
      s.pc + 2 ≤ 255 ∧ storeAddress (.call 1) s = some 255 ∧ storedWord (.call 1) s = some 0xFF ∧
      step s = .next t ∧ t.pc = 255 ∧ decodeOpcode t.params 0xFF = none :=
  ⟨by decide, rfl, rfl, rfl, by decide, rfl, rfl, rfl, rfl, rfl⟩

/-- PUSH R7 at 251 with SP = 0 writes 0xFF at 255, the last operand of the LDI R0 that stands at 253. -/
theorem witness_StoredWordsAreWhatLaterFetchesRead_operand :
    let s := (start 251 [0x45, 7, 0x82, 0]).setReg 7 0
    let t := (s.decSp.store 255 0xFF).advance 2
    Memory.wf s.mem ∧ s.fetch = .ok (.push 7) ∧ storeAddress (.push 7) s = some 255 ∧
      storedWord (.push 7) s = some 0xFF ∧ step s = .next t ∧ t.pc + (1 + 1) = 255 ∧
      decodeOpcode t.params (t.wordAhead 0) = some .ldi ∧ 1 < Op.ldi.operands ∧ t.pc + Op.ldi.operands ≤ 255 :=
  ⟨by decide, rfl, rfl, rfl, rfl, rfl, rfl, by decide, by decide⟩

end Sys2Proof.Tests
end

section
/-! PROOF. The build parameters are fixed when the machine is made (00_scope.md R8): nothing a step does writes them. -/

namespace Sys2Proof.Proofs.Scope

open Sys2Proof.Machine

/-- Performing an instruction and raising a condition alike leave the build parameters as they are. -/
theorem exec_params {i : Instr} {s t : State} (h : exec i s = .next t) : t.params = s.params := by
  obtain hp | ⟨c, rfl, -⟩ := exec_inv h
  · exact hp.params
  · exact s.raise_params c

/-- Settles O33: a step is an instruction's meaning or the condition its fetch raised, and neither writes the field. -/
theorem buildParametersNeverChange : Obligations.BuildParametersNeverChange := by
  intro s t h
  obtain ⟨-, ⟨i, -, hexec⟩ | ⟨c, -, rfl⟩⟩ := step_cases h
  · exact exec_params hexec
  · exact s.raise_params c

end Sys2Proof.Proofs.Scope
end

section
/-! PROOF. The state rules of 10_state.md: what performing an instruction, taking a condition, stepping and loading do
to each component of the state, and the invariant of R37. -/

namespace Sys2Proof.Machine

/-! ## Performed and refused exclude each other -/

/-- Whoever performs has all its register operands in 0..7, and CALL's return address inside memory. -/
theorem Performed.wellFormed {s t : State} {i : Instr} (h : Performed s i t) :
    i.wellFormed = true ∧ (i.op = .call → s.pc + 2 ≤ 255) := by
  have one {w : Word} {d : Fin 8} (hw : w.toNat = d.val) :
      [w].all (fun w => decide (w.toNat < Config.numRegs)) = true := by
    simp [hw, Config.numRegs_eq]
  have two {a b : Word} {d e : Fin 8} (ha : a.toNat = d.val) (hb : b.toNat = e.val) :
      [a, b].all (fun w => decide (w.toNat < Config.numRegs)) = true := by
    simp [ha, hb, Config.numRegs_eq]
  cases h with
  | hlt | ret => exact ⟨rfl, nofun⟩
  | push r d h | prn r d h | jmp r d h | jeq r d h | jne r d h | jgt r d h | jlt r d h => exact ⟨one h, nofun⟩
  | popEmpty r d h hs | pop r d h hs => exact ⟨one h, nofun⟩
  | call r d h hpc => exact ⟨one h, fun _ => hpc⟩
  | ldi r imm d h => exact ⟨one h, nofun⟩
  | add a b d e ha hb | sub a b d e ha hb | mul a b d e ha hb | cmp a b d e ha hb => exact ⟨two ha hb, nofun⟩

/-- An instruction that performs is not refused. -/
theorem Performed.not_refused {s t : State} {i : Instr} {c : Cause} (h : Performed s i t) : ¬ Refused s i c := by
  intro hr
  obtain ⟨hwf, hcall⟩ := h.wellFormed
  obtain ⟨hop, hpc⟩ := hr.wellFormed hwf
  have := hcall hop
  omega

/-- An instruction is refused for one cause only: CALL's return address counts after its operand. -/
theorem Refused.unique {s : State} {i : Instr} {c c' : Cause} (h : Refused s i c) (h' : Refused s i c') : c = c' := by
  have call_operand {r w : Word} (hr : r.toNat < 8)
      (hw : (Instr.call r).regOperands.find? (fun v => decide (7 < v.toNat)) = some w) : False := by
    have : ¬ 7 < r.toNat := by omega
    simp [Instr.regOperands, this] at hw
  cases h with
  | regOperand w hw =>
    cases h' with
    | regOperand w' hw' =>
      obtain rfl : w = w' := Option.some.inj (hw.symm.trans hw')
      rfl
    | returnAddress r hi hr hpc => subst hi; exact (call_operand hr hw).elim
  | returnAddress r hi hr hpc =>
    cases h' with
    | regOperand w hw => subst hi; exact (call_operand hr hw).elim
    | returnAddress r' hi' hr' hpc' => rfl

/-- Where an instruction is refused, `exec` takes the condition: the counterpart of `Performed.exec_eq`. -/
theorem Refused.exec_eq {s : State} {i : Instr} {c : Cause} (h : Refused s i c) : exec i s = .next (s.raise c) := by
  obtain ⟨t, -, hp⟩ | ⟨c', he, hr⟩ := exec_cases i s
  · exact (hp.not_refused h).elim
  · rw [he, h.unique hr]

/-- Whether an instruction is refused, and why, is a matter of pc and the instruction alone. -/
theorem Refused.congr_pc {s : State} {i : Instr} {c : Cause} (h : Refused s i c) (u : State) (hpc : u.pc = s.pc) :
    Refused u i c := by
  cases h with
  | regOperand w hw => exact hpc ▸ .regOperand w hw
  | returnAddress r hi hr h255 => exact hpc ▸ .returnAddress r hi hr (by omega)

/-! ## What a step can do, with the address of every condition -/

/-- A condition that an instruction takes names the instruction's address. -/
theorem Refused.cause_pc {s : State} {i : Instr} {c : Cause} (h : Refused s i c) : c.pc = s.pc := by
  obtain ⟨sp, n, rfl⟩ := h.outOfBounds
  rfl

/-- A condition that a fetch raises names the address fetched from. -/
theorem fetch_error_pc {s : State} {c : Cause} (h : s.fetch = .error c) : c.pc = s.pc := by
  obtain ⟨-, hf⟩ | ⟨-, -, hf⟩ | ⟨o, -, -, ⟨-, -, hf⟩ | ⟨-, -, hf⟩ | ⟨-, hf⟩⟩ := fetch_cases s <;>
    rw [hf] at h <;> cases h <;> rfl

/-- A step starts in Running and either performs the instruction it fetched or takes a condition that names pc. -/
theorem step_inv {s t : State} (h : step s = .next t) :
    s.run = .running ∧ ((∃ i, s.fetch = .ok i ∧ Performed s i t) ∨ ∃ c, t = s.raise c ∧ c.pc = s.pc) := by
  obtain ⟨hrun, ⟨i, hf, he⟩ | ⟨c, hf, rfl⟩⟩ := step_cases h
  · obtain hp | ⟨c, rfl, hr⟩ := exec_inv he
    · exact ⟨hrun, .inl ⟨i, hf, hp⟩⟩
    · exact ⟨hrun, .inr ⟨c, rfl, hr.cause_pc⟩⟩
  · exact ⟨hrun, .inr ⟨c, rfl, fetch_error_pc hf⟩⟩

/-! ## Run state -/

/-- Only HLT halts: its instruction and the state it makes. -/
theorem Performed.of_op_hlt {s t : State} {i : Instr} (h : Performed s i t) (hop : i.op = .hlt) :
    i = .hlt ∧ t = (s.advance 1).halt := by
  cases h <;> cases hop
  exact ⟨rfl, rfl⟩

/-- A running machine that performs goes on running, or performed HLT. -/
theorem Performed.run_of_running {s t : State} {i : Instr} (h : Performed s i t) (hrun : s.run = .running) :
    t.run = .running ∨ (i = .hlt ∧ t = (s.advance 1).halt) := by
  by_cases hop : i.op = .hlt
  · exact .inr (h.of_op_hlt hop)
  · exact .inl (by rw [h.run, if_neg hop, hrun])

theorem Performed.not_crashed {s t : State} {i : Instr} (h : Performed s i t) (hrun : s.run = .running) :
    ¬ t.Crashed := by
  rintro ⟨c, hc⟩
  obtain hr | ⟨-, rfl⟩ := h.run_of_running hrun
  · cases hr.symm.trans hc
  · cases hc

/-! ## Registers, output, pc -/

/-- The register frame of R23. -/
theorem Performed.reg_frame {s t : State} {i : Instr} {d : Fin 8} (h : Performed s i t)
    (hd : ∀ w ∈ writtenRegs i s, w.toNat ≠ d.val) : t.reg d = s.reg d := by
  have ne_sp (h7 : (7 : Word).toNat ≠ d.val) : d ≠ 7 := by
    rintro rfl
    exact h7 rfl
  have dest {w : Word} {k : Fin 8} (hw : w.toNat = k.val) (hwd : w.toNat ≠ d.val) : k ≠ d := by
    rintro rfl
    exact hwd hw
  cases h with
  | hlt | popEmpty | prn | jmp | cmp => rfl
  | jeq | jne | jgt | jlt => split <;> rfl
  | ret => exact s.incSp_reg_other (ne_sp (hd 7 (by simp [writtenRegs])))
  | push | call => exact s.decSp_reg_other (ne_sp (hd 7 (by simp [writtenRegs])))
  | ldi r imm k h => exact s.setReg_reg_other _ (dest h (hd r (by simp [writtenRegs])))
  | add a b k e ha hb | sub a b k e ha hb | mul a b k e ha hb =>
    exact s.setReg_reg_other _ (dest ha (hd a (by simp [writtenRegs])))
  | pop r k h hs =>
    have hw : writtenRegs (.pop r) s = [r, 7] := if_neg hs
    rw [hw] at hd
    calc ((s.setReg k _).incSp.advance 2).reg d
      _ = (s.setReg k _).reg d := State.incSp_reg_other _ (ne_sp (hd 7 (by simp)))
      _ = s.reg d := s.setReg_reg_other _ (dest h (hd r (by simp)))

/-- What performing an instruction adds to the output log (R32). -/
theorem Performed.out {s t : State} {i : Instr} (h : Performed s i t) :
    t.out = s.out ∨ (∃ r v, i = .prn r ∧ t.out = s.out ++ [.print v]) ∨
      ∃ r, i = .pop r ∧ s.sp = 0xF4 ∧ t.out = s.out ++ [.diag (.emptyStackPop s.pc)] := by
  cases h with
  | prn r d h => exact .inr (.inl ⟨r, _, rfl, rfl⟩)
  | popEmpty r d h hs => exact .inr (.inr ⟨r, rfl, hs, rfl⟩)
  | jeq | jne | jgt | jlt => left; split <;> rfl
  | hlt | ret | push | pop | call | jmp | ldi | add | sub | mul | cmp => exact .inl rfl

/-- pc after an instruction that performs is that of the table of R26. -/
theorem Performed.pc_eq_tablePc {s t : State} {i : Instr} (h : Performed s i t) : t.pc = tablePc i s := by
  cases h with
  | hlt | ret | push | popEmpty | pop | prn | ldi | add | sub | mul | cmp => rfl
  | call r d h hpc => rw [tablePc, s.decSp.regW_eq h]; rfl
  | jmp r d h => rw [tablePc, s.regW_eq h]; rfl
  | jeq r d h | jne r d h | jgt r d h | jlt r d h => rw [tablePc, s.regW_eq h]; split <;> rfl

/-- A fetched instruction that performs leaves pc in 0..256, and at 256 only by going on to the next instruction. -/
theorem Performed.pc_of_fetch {s t : State} {i : Instr} (h : Performed s i t) (hf : s.fetch = .ok i) :
    t.pc ≤ 256 ∧ (t.pc = 256 → t.pc = s.pc + i.op.width) := by
  obtain ⟨hin, -⟩ := fetch_ok hf
  have hwidth : i.op.width = 1 + i.op.operands := rfl
  obtain hpc | hpc := h.pc <;> omega

/-! ## Other flags, an earlier output log -/

/-- The flag bit an instruction reads, if it reads one, is the same in `f` as in `g` (R28): E for JEQ and JNE, G for JGT,
L for JLT. -/
def Flags.agreeFor (i : Instr) (f g : Flags) : Prop :=
  (i.op = .jeq ∨ i.op = .jne → f.e = g.e) ∧ (i.op = .jgt → f.g = g.g) ∧ (i.op = .jlt → f.l = g.l)

/-- Other flags that agree on the bit read pass through every instruction but CMP. -/
theorem Performed.setFlags {s t : State} {i : Instr} {f : Flags} (h : Performed s i t) (hi : i.op ≠ .cmp)
    (hf : f.agreeFor i s.fl) : Performed (s.setFlags f) i (t.setFlags f) := by
  obtain ⟨he, hg, hl⟩ := hf
  cases h with
  | hlt => exact .hlt
  | ret => exact .ret
  | push r d h => exact .push r d h
  | popEmpty r d h hs => exact .popEmpty r d h hs
  | pop r d h hs => exact .pop r d h hs
  | prn r d h => exact .prn r d h
  | call r d h hpc => exact .call r d h hpc
  | jmp r d h => exact .jmp r d h
  | jeq r d h => rw [← he (.inl rfl), apply_ite (State.setFlags · f)]; exact .jeq r d h
  | jne r d h => rw [← he (.inr rfl), apply_ite (State.setFlags · f)]; exact .jne r d h
  | ldi r imm d h => exact .ldi r imm d h
  | add a b d e ha hb => exact .add a b d e ha hb
  | sub a b d e ha hb => exact .sub a b d e ha hb
  | mul a b d e ha hb => exact .mul a b d e ha hb
  | cmp a b d e ha hb => exact absurd rfl hi
  | jgt r d h => rw [← hg rfl, apply_ite (State.setFlags · f)]; exact .jgt r d h
  | jlt r d h => rw [← hl rfl, apply_ite (State.setFlags · f)]; exact .jlt r d h

/-- CMP writes all three flags, so the state it makes is the same whatever they were. -/
theorem Performed.cmp_setFlags {s t : State} {i : Instr} {f : Flags} (h : Performed s i t) (hi : i.op = .cmp) :
    Performed (s.setFlags f) i t := by
  cases h <;> cases hi
  case cmp a b d e ha hb => exact .cmp a b d e ha hb

/-- The state with an earlier output log in front of its own. -/
def State.withEarlier (s : State) (earlier : List Event) : State := { s with out := earlier ++ s.out }

theorem State.emit_withEarlier (s : State) (earlier : List Event) (e : Event) :
    (s.emit e).withEarlier earlier = (s.withEarlier earlier).emit e := by
  simp only [State.emit, State.withEarlier, List.append_assoc]

theorem State.raise_withEarlier (s : State) (earlier : List Event) (c : Cause) :
    (s.raise c).withEarlier earlier = (s.withEarlier earlier).raise c := by
  simp only [State.raise, State.withEarlier, List.append_assoc]

/-- An earlier output log passes through every instruction. -/
theorem Performed.withEarlier {s t : State} {i : Instr} (earlier : List Event) (h : Performed s i t) :
    Performed (s.withEarlier earlier) i (t.withEarlier earlier) := by
  cases h with
  | hlt => exact .hlt
  | ret => exact .ret
  | push r d h => exact .push r d h
  | popEmpty r d h hs =>
    have := Performed.popEmpty (s := s.withEarlier earlier) r d h hs
    rwa [← s.emit_withEarlier] at this
  | pop r d h hs => exact .pop r d h hs
  | prn r d h =>
    have := Performed.prn (s := s.withEarlier earlier) r d h
    rwa [← s.emit_withEarlier] at this
  | call r d h hpc => exact .call r d h hpc
  | jmp r d h => exact .jmp r d h
  | jeq r d h => rw [apply_ite (State.withEarlier · earlier)]; exact .jeq r d h
  | jne r d h => rw [apply_ite (State.withEarlier · earlier)]; exact .jne r d h
  | ldi r imm d h => exact .ldi r imm d h
  | add a b d e ha hb => exact .add a b d e ha hb
  | sub a b d e ha hb => exact .sub a b d e ha hb
  | mul a b d e ha hb => exact .mul a b d e ha hb
  | cmp a b d e ha hb => exact .cmp a b d e ha hb
  | jgt r d h => rw [apply_ite (State.withEarlier · earlier)]; exact .jgt r d h
  | jlt r d h => rw [apply_ite (State.withEarlier · earlier)]; exact .jlt r d h

/-- An earlier output log passes through every meaning, whether the instruction performs or is refused. -/
theorem exec_withEarlier {s t : State} {i : Instr} (earlier : List Event) (h : exec i s = .next t) :
    exec i (s.withEarlier earlier) = .next (t.withEarlier earlier) := by
  obtain hp | ⟨c, rfl, hr⟩ := exec_inv h
  · exact (hp.withEarlier earlier).exec_eq
  · rw [s.raise_withEarlier]
    exact (hr.congr_pc (s.withEarlier earlier) rfl).exec_eq

/-! ## The invariant of R37 -/

theorem Flags.compare_atMostOne (x y : Word) : (Flags.compare x y).atMostOne = true := by
  have h : (Flags.compare x y).exactlyOne = true := Flags.compare_exactlyOne x y
  exact decide_eq_true (of_decide_eq_true h).le

/-- Taking a condition that names pc leads from a state with the invariant to one. -/
theorem State.Inv.raise {s : State} (h : s.Inv) {c : Cause} (hc : c.pc = s.pc) : (s.raise c).Inv where
  mem_wf := h.mem_wf
  pc_le := h.pc_le
  flags := h.flags
  halted := nofun
  fatal := by
    rintro c' hc'
    cases hc'
    exact ⟨hc, by simp⟩

/-- A store inside memory by a machine that is still running keeps the invariant. -/
theorem State.Inv.store {s : State} (h : s.Inv) (hrun : s.run = .running) {a : Nat} (ha : a < 256) (v : Word) :
    (s.store a v).Inv where
  mem_wf := Memory.write_wf h.mem_wf v ha
  pc_le := h.pc_le
  flags := h.flags
  halted hh := nomatch hrun.symm.trans hh
  fatal _ hc := nomatch hrun.symm.trans hc

theorem Performed.mem_wf {s t : State} {i : Instr} (h : Performed s i t) (hm : Memory.wf s.mem) :
    Memory.wf t.mem := by
  obtain hm' | ⟨a, v, ha, hm', -⟩ := h.mem
  · rwa [hm']
  · rw [hm']
    exact Memory.write_wf hm v ha

theorem Performed.flags_atMostOne {s t : State} {i : Instr} (h : Performed s i t) (hf : s.fl.atMostOne = true) :
    t.fl.atMostOne = true := by
  obtain hfl | ⟨-, x, y, hfl⟩ := h.fl
  · rwa [hfl]
  · rw [hfl]
    exact Flags.compare_atMostOne x y

/-- Performing the fetched instruction leads from a state with the invariant to one; HLT leaves pc just after itself,
and nothing leaves the machine in Fatal. -/
theorem State.Inv.performed {s t : State} {i : Instr} (h : s.Inv) (hrun : s.run = .running) (hf : s.fetch = .ok i)
    (hp : Performed s i t) : t.Inv where
  mem_wf := hp.mem_wf h.mem_wf
  pc_le := (hp.pc_of_fetch hf).1
  flags := hp.flags_atMostOne h.flags
  halted hh := by
    obtain hr | ⟨rfl, rfl⟩ := hp.run_of_running hrun
    · cases hr.symm.trans hh
    · obtain ⟨-, hop, -⟩ := fetch_ok hf
      exact ⟨Nat.le_add_left 1 s.pc, hop⟩
  fatal c hc := (hp.not_crashed hrun ⟨c, hc⟩).elim

/-- The invariant holds after construction with any parameters and any flags of R29. -/
theorem State.construct_inv (p : Params) (gpr : Word) {fl : Flags} (hfl : fl.atMostOne = true) :
    (State.construct p gpr fl).Inv where
  mem_wf := Memory.wf_nil
  pc_le := Nat.zero_le _
  flags := hfl
  halted := nofun
  fatal := nofun

/-- The load into a running machine keeps the invariant whatever the image's length: an image too long ends in a
condition that names pc. -/
theorem State.Inv.loadFrom {s : State} (k : Nat) (ws : List Word) (h : s.Inv) (hrun : s.run = .running) :
    (State.loadFrom k ws s).Inv := by
  induction ws generalizing k s with
  | nil => exact h
  | cons w ws ih =>
    rw [State.loadFrom_cons]
    split
    case isTrue hk => exact ih (k + 1) (h.store hrun hk w) hrun
    case isFalse => exact h.raise rfl

theorem State.loadFrom_params (k : Nat) (ws : List Word) (s : State) :
    (State.loadFrom k ws s).params = s.params := by
  induction ws generalizing k s with
  | nil => rfl
  | cons w ws ih =>
    rw [State.loadFrom_cons]
    split
    case isTrue => exact ih (k + 1) (s.store k w)
    case isFalse => rfl

end Sys2Proof.Machine

namespace Sys2Proof.Proofs.StateRules

open Sys2Proof.Machine

/-- Settles O22: a step performs the instruction it fetched or takes a condition that names pc, and each keeps the
invariant. -/
theorem everyStepKeepsTheInvariant : Obligations.EveryStepKeepsTheInvariant := by
  intro s t hs h
  obtain ⟨hrun, ⟨i, hf, hp⟩ | ⟨c, rfl, hc⟩⟩ := step_inv h
  · exact hs.performed hrun hf hp
  · exact hs.raise hc

/-- Settles O23, by induction on how the state is reached; `everyStepKeepsTheInvariant` is the step. -/
theorem everyReachableStateSatisfiesTheInvariant : Obligations.EveryReachableStateSatisfiesTheInvariant := by
  intro p s h
  induction h with
  | launch gpr fl hfl image =>
    exact ⟨(State.construct_inv p gpr hfl).loadFrom Config.loadBase image rfl, State.loadFrom_params _ _ _⟩
  | step hr hstep ih =>
    obtain ⟨hinv, hparams⟩ := ih
    exact ⟨everyStepKeepsTheInvariant _ _ hinv hstep, (Scope.buildParametersNeverChange _ _ hstep).trans hparams⟩

/-- Settles O17, from `step_inv`: what performs goes on running unless it is HLT. -/
theorem runStateTransitions : Obligations.RunStateTransitions := by
  intro s t h
  obtain ⟨hrun, ⟨i, hf, hp⟩ | ⟨c, rfl, -⟩⟩ := step_inv h
  · obtain hr | ⟨rfl, rfl⟩ := hp.run_of_running hrun
    · exact ⟨hrun, .inl hr⟩
    · exact ⟨hrun, .inr (.inl ⟨rfl, hf, rfl⟩)⟩
  · exact ⟨hrun, .inr (.inr ⟨c, rfl⟩)⟩

/-- Settles O27: of the instructions that perform only CMP writes the flags, and a condition leaves them. -/
theorem onlyCmpWritesTheFlags : Obligations.OnlyCmpWritesTheFlags := by
  intro i s t h hi
  obtain hp | ⟨c, rfl, -⟩ := exec_inv h
  · obtain hfl | ⟨hop, -⟩ := hp.fl
    · exact hfl
    · exact absurd hop hi
  · rfl

/-- Settles O28: other flags pass through what performs and what is refused alike, and a CMP that performs forgets
them. -/
theorem onlyConditionalJumpsReadTheFlags : Obligations.OnlyConditionalJumpsReadTheFlags := by
  intro i s t f h
  obtain hp | ⟨c, rfl, hr⟩ := exec_inv h
  · exact ⟨fun hi he hg hl => (hp.setFlags hi ⟨he, hg, hl⟩).exec_eq, fun hi _ => (hp.cmp_setFlags hi).exec_eq⟩
  · refine ⟨fun _ _ _ _ => (hr.congr_pc (s.setFlags f) rfl).exec_eq, fun hi hwf => ?_⟩
    obtain ⟨hop, -⟩ := hr.wellFormed hwf
    cases hi.symm.trans hop

/-- Settles O30, from `Performed.reg_frame`; a condition leaves every register. -/
theorem registerFrame : Obligations.RegisterFrame := by
  intro i s t d h hd
  obtain hp | ⟨c, rfl, -⟩ := exec_inv h
  · exact hp.reg_frame hd
  · rfl

/-- Settles O31, from `Performed.out`; what does not perform took a condition. -/
theorem outputGrowsOnlyByItsEvents : Obligations.OutputGrowsOnlyByItsEvents := by
  intro i s t h
  obtain hp | ⟨c, rfl, -⟩ := exec_inv h
  · obtain hout | hprn | hpop := hp.out
    · exact .inl hout
    · exact .inr (.inl hprn)
    · exact .inr (.inr (.inl hpop))
  · exact .inr (.inr (.inr ⟨c, rfl⟩))

/-- Settles O32: a fetch does not read the log, and an earlier log passes through every meaning and every condition. -/
theorem outputIsNeverRead : Obligations.OutputIsNeverRead := by
  intro s t earlier h
  show step (s.withEarlier earlier) = .next (t.withEarlier earlier)
  have hfetch : (s.withEarlier earlier).fetch = s.fetch := rfl
  obtain ⟨hrun, hcase⟩ := step_cases h
  have hrun' : (s.withEarlier earlier).run = .running := hrun
  obtain ⟨i, hf, he⟩ | ⟨c, hf, rfl⟩ := hcase
  · rw [step_of_fetch hrun' (hfetch.trans hf)]
    exact exec_withEarlier earlier he
  · rw [step_of_fetch_error hrun' (hfetch.trans hf), s.raise_withEarlier]

/-- Settles O34: what performs has not crashed and its pc is the table's; a condition leaves pc. -/
theorem nextPcIsAsTheTableSays : Obligations.NextPcIsAsTheTableSays := by
  intro i s t hrun h
  obtain hp | ⟨c, rfl, -⟩ := exec_inv h
  · exact ⟨fun hc => (hp.not_crashed hrun hc).elim, fun _ => hp.pc_eq_tablePc⟩
  · exact ⟨fun _ => rfl, fun hc => (hc ⟨c, rfl⟩).elim⟩

/-- Settles O35, from `Performed.pc_of_fetch`; a fatal step leaves pc. -/
theorem pcReaches256OnlySequentially : Obligations.PcReaches256OnlySequentially := by
  intro s t hpc h
  obtain ⟨-, ⟨i, hf, hp⟩ | ⟨c, rfl, -⟩⟩ := step_inv h
  · obtain ⟨hle, hseq⟩ := hp.pc_of_fetch hf
    exact ⟨hle, fun h256 => .inr ⟨i, hf, hseq h256⟩⟩
  · exact ⟨hpc, fun _ => .inl ⟨c, rfl⟩⟩

/-- Settles O20: the reset state written out; the registers other than SP are the seven that hold `GPR_RESET`. -/
theorem resetValues : Obligations.ResetValues :=
  ⟨Memory.read_nil, rfl, rfl, rfl, rfl, by decide, rfl⟩

/-- Settles O21: reset is construction with all flags clear. -/
theorem resetSatisfiesTheInvariant : Obligations.ResetSatisfiesTheInvariant :=
  State.construct_inv Params.default 0x00 rfl

end Sys2Proof.Proofs.StateRules
end

section
/-! PROOF. Memory (20_memory.md): the canonical form determines the memory, what an instruction can store, and what a
fetch makes of the words it finds. -/

namespace Sys2Proof.Machine

/-! ## The canonical form determines the memory -/

@[simp] theorem Memory.read_cons_same (k : Nat) (u : Word) (m : Memory) : Memory.read ((k, u) :: m) k = u :=
  if_pos rfl

theorem Memory.read_cons_other {k a : Nat} (u : Word) (m : Memory) (h : k ≠ a) :
    Memory.read ((k, u) :: m) a = Memory.read m a :=
  if_neg h

/-- A first listed address that another canonical memory reads as the first does is not below that memory's first. -/
theorem Memory.first_le_first {k k' : Nat} {u u' : Word} {m m' : Memory} (hm : Memory.wf ((k, u) :: m))
    (hm' : Memory.wf ((k', u') :: m'))
    (hread : Memory.read ((k, u) :: m) k = Memory.read ((k', u') :: m') k) : k' ≤ k := by
  obtain ⟨-, hu, -, -⟩ := Memory.wf_cons.1 hm
  obtain ⟨habove, -, -, -⟩ := Memory.wf_cons.1 hm'
  by_contra hlt
  have hbelow : Memory.read ((k', u') :: m') k = Memory.unlisted := by
    refine Memory.read_below fun c hc => ?_
    obtain rfl | hc := List.mem_cons.1 hc
    · exact Nat.not_le.1 hlt
    · exact (Nat.not_le.1 hlt).trans (habove c hc)
  exact hu (by rw [← hbelow, ← hread, Memory.read_cons_same])

/-- Canonical memories with the same first address that read alike have tails that read alike: the first address itself
is listed in neither tail. -/
theorem Memory.tails_read_alike {k : Nat} {u u' : Word} {m m' : Memory} (hm : Memory.wf ((k, u) :: m))
    (hm' : Memory.wf ((k, u') :: m'))
    (hread : ∀ a, Memory.read ((k, u) :: m) a = Memory.read ((k, u') :: m') a) (a : Nat) :
    Memory.read m a = Memory.read m' a := by
  obtain ⟨habove, -, -, -⟩ := Memory.wf_cons.1 hm
  obtain ⟨habove', -, -, -⟩ := Memory.wf_cons.1 hm'
  by_cases ha : k = a
  · subst ha
    rw [Memory.read_below habove, Memory.read_below habove']
  · rw [← Memory.read_cons_other u m ha, hread a, Memory.read_cons_other u' m' ha]

/-- Canonical memories that read alike are the same list of cells (R50, R51). -/
theorem Memory.eq_of_read_eq {m m' : Memory} (hm : Memory.wf m) (hm' : Memory.wf m')
    (hread : ∀ a, Memory.read m a = Memory.read m' a) : m = m' := by
  induction m generalizing m' with
  | nil =>
    cases m' with
    | nil => rfl
    | cons c' m' =>
      obtain ⟨k', u'⟩ := c'
      obtain ⟨-, hu', -, -⟩ := Memory.wf_cons.1 hm'
      exact absurd (by simpa using (hread k').symm) hu'
  | cons c m ih =>
    obtain ⟨k, u⟩ := c
    cases m' with
    | nil =>
      obtain ⟨-, hu, -, -⟩ := Memory.wf_cons.1 hm
      exact absurd (by simpa using hread k) hu
    | cons c' m' =>
      obtain ⟨k', u'⟩ := c'
      obtain rfl : k = k' :=
        Nat.le_antisymm (Memory.first_le_first hm' hm (hread k').symm) (Memory.first_le_first hm hm' (hread k))
      obtain rfl : u = u' := by simpa using hread k
      obtain ⟨-, -, -, htail⟩ := Memory.wf_cons.1 hm
      obtain ⟨-, -, -, htail'⟩ := Memory.wf_cons.1 hm'
      rw [ih htail htail' (Memory.tails_read_alike hm hm' hread)]

/-! ## What an instruction can store -/

/-- Only PUSH and CALL have an address they store to, and it is inside memory. -/
theorem storeAddress_some {i : Instr} {s : State} {a : Nat} (h : storeAddress i s = some a) :
    (i.op = .push ∨ i.op = .call) ∧ a < 256 := by
  cases i <;> cases h
  case push r => exact ⟨.inl rfl, BitVec.isLt _⟩
  case call r => exact ⟨.inr rfl, BitVec.isLt _⟩

/-- The memory frame of an instruction that performs (R54). -/
theorem Performed.read_frame {s t : State} {i : Instr} {a : Nat} (h : Performed s i t)
    (ha : storeAddress i s ≠ some a) : Memory.read t.mem a = Memory.read s.mem a := by
  obtain hm | ⟨b, v, -, hm, hb, -⟩ := h.mem
  · rw [hm]
  · have hab : a ≠ b := fun hab => ha (hab ▸ hb)
    rw [hm, Memory.read_write_other _ _ hab]

theorem Performed.mem_eq {s t : State} {i : Instr} (h : Performed s i t) (hpush : i.op ≠ .push)
    (hcall : i.op ≠ .call) : t.mem = s.mem := by
  obtain hm | ⟨-, -, -, -, -, hop | hop⟩ := h.mem
  · exact hm
  · exact absurd hop hpush
  · exact absurd hop hcall

/-- A well-formed instruction performs, but for CALL whose return address is above 255. -/
theorem exec_of_wellFormed {i : Instr} {s : State} (hwf : i.wellFormed = true)
    (hcall : i.op = .call → s.pc + 2 ≤ 255) : ∃ t, exec i s = .next t ∧ Performed s i t := by
  obtain hp | ⟨c, -, hr⟩ := exec_cases i s
  · exact hp
  · obtain ⟨hop, hpc⟩ := hr.wellFormed hwf
    exact absurd (hcall hop) (Nat.not_le.2 hpc)

/-! ## What a fetch makes of the words at pc -/

/-- An undefined opcode inside memory, whatever follows it (R111). -/
theorem fetch_of_undefined {u : State} (hpc : u.pc ≤ 255) (hop : decodeOpcode u.params (u.wordAhead 0) = none) :
    u.fetch = .error (.decodeError (u.wordAhead 0) u.pc) := by
  obtain ⟨hpc', -⟩ | ⟨-, -, hf⟩ | ⟨o, -, hop', -⟩ := fetch_cases u
  · omega
  · exact hf
  · cases hop.symm.trans hop'

/-- A defined opcode inside memory whose operands are not: the first address outside is 256 (R104). -/
theorem fetch_of_operands_beyond {u : State} {o : Op} (hpc : u.pc ≤ 255)
    (hop : decodeOpcode u.params (u.wordAhead 0) = some o) (hout : 255 < u.pc + o.operands) :
    u.fetch = .error (.outOfBounds .mem 256 u.pc) := by
  obtain ⟨hpc', -⟩ | ⟨-, hop', -⟩ | ⟨o', -, hop', ⟨-, h255, hf⟩ | ⟨-, h254, hf⟩ | ⟨hin, -⟩⟩ := fetch_cases u
  · omega
  · cases hop.symm.trans hop'
  · rw [hf, h255]
  · rw [hf, h254]
  · obtain rfl : o = o' := Option.some.inj (hop.symm.trans hop')
    omega

/-- A defined opcode with its operands inside memory: the instruction built from it and the words after it. -/
theorem fetch_of_operands_inside {u : State} {o : Op} (hop : decodeOpcode u.params (u.wordAhead 0) = some o)
    (hin : u.pc + o.operands ≤ 255) : u.fetch = .ok (o.instr (u.wordAhead 1) (u.wordAhead 2)) := by
  obtain ⟨hpc', -⟩ | ⟨-, hop', -⟩ | ⟨o', -, hop', hcase⟩ := fetch_cases u
  · omega
  · cases hop.symm.trans hop'
  · obtain rfl : o = o' := Option.some.inj (hop.symm.trans hop')
    obtain ⟨_, _, -⟩ | ⟨_, _, -⟩ | ⟨-, hf⟩ := hcase
    · omega
    · omega
    · exact hf

/-- Operand word `k` of the fetched instruction is the word `k + 1` places after the opcode (R56, R71). -/
theorem operandWord_of_fetched (u : State) {o : Op} {k : Nat} (hk : k < o.operands) :
    (o.instr (u.wordAhead 1) (u.wordAhead 2)).operandWords[k]? = some (u.wordAhead (k + 1)) := by
  have ho := o.operands_le
  rw [Op.instr_operandWords, List.getElem?_take_of_lt hk]
  obtain rfl | rfl : k = 0 ∨ k = 1 := by omega
  · rfl
  · rfl

end Sys2Proof.Machine

namespace Sys2Proof.Proofs.MemoryRules

open Sys2Proof.Machine

/-- Settles O26, by induction on the first memory's cells: the first addresses are equal, as the smaller one would read
as unlisted in the other memory. -/
theorem canonicalMemoriesThatReadAlikeAreEqual : Obligations.CanonicalMemoriesThatReadAlikeAreEqual :=
  fun _ _ hm hm' hread => Memory.eq_of_read_eq hm hm' hread

/-- Settles O29: an instruction that performs stores at `storeAddress` alone, and a condition leaves memory. -/
theorem memoryFrame : Obligations.MemoryFrame := by
  intro i s t h
  obtain hp | ⟨c, rfl, -⟩ := exec_inv h
  · exact ⟨fun a ha => hp.read_frame ha, hp.mem_eq⟩
  · exact ⟨fun _ _ => rfl, fun _ _ => rfl⟩

/-- Settles O55: the storing step performs and its cell holds the word (`Performed.read_stored`); what a later step does
with that word is what a fetch makes of the words at pc. -/
theorem storedWordsAreWhatLaterFetchesRead : Obligations.StoredWordsAreWhatLaterFetchesRead := by
  intro s i a w hm hrun hfetch hwf hcall ha hw
  obtain ⟨hop, ha256⟩ := storeAddress_some ha
  obtain ⟨t, hexec, hp⟩ := exec_of_wellFormed hwf hcall
  have hnotHlt : i.op ≠ .hlt := by intro h; simp [h] at hop
  refine ⟨t, (step_of_fetch hrun hfetch).trans hexec, by rw [hp.run, if_neg hnotHlt, hrun], fun u hu hcell => ?_⟩
  have hword : Memory.read u.mem a = w := hcell.trans (hp.read_stored hm ha hw)
  refine ⟨?undefinedOpcode, ?definedOpcode, ?operand⟩
  case undefinedOpcode =>
    rintro rfl hnone
    subst hword
    exact step_of_fetch_error hu (fetch_of_undefined (by omega) hnone)
  case definedOpcode =>
    rintro rfl o hsome
    subst hword
    split
    case isTrue hin =>
      have hf := fetch_of_operands_inside hsome hin
      exact ⟨_, hf, Op.instr_op o _ _, step_of_fetch hu hf⟩
    case isFalse hout =>
      exact step_of_fetch_error hu (fetch_of_operands_beyond (by omega) hsome (by omega))
  case operand =>
    rintro k o rfl hsome hk hin
    subst hword
    have hf := fetch_of_operands_inside hsome hin
    exact ⟨_, hf, Op.instr_op o _ _, operandWord_of_fetched u hk, step_of_fetch hu hf⟩

end Sys2Proof.Proofs.MemoryRules
end

section
/-! PROOF. The encoding (30_encoding.md): what the opcode decoder and the decoder answer, each said once as an `↔`, and
how many bytes of a legal map are opcodes. -/

namespace Sys2Proof

/-! ## The opcode byte -/

/-- R77 under a legal map: the search of the map finds the one mnemonic that is present with that byte. -/
theorem decodeOpcode_eq_some_iff {p : Params} (hp : p.legal = true) {b : Word} {o : Op} :
    decodeOpcode p b = some o ↔ p.present o = true ∧ p.opmap.byte o = b := by
  refine ⟨decodeOpcode_some, fun ⟨ho, hb⟩ => ?_⟩
  have hfound : (decodeOpcode p b).isSome :=
    List.find?_isSome.2 ⟨o, Op.mem_all o, by simp [ho, hb]⟩
  obtain ⟨o', ho'⟩ := Option.isSome_iff_exists.1 hfound
  obtain ⟨hpres, hbyte⟩ := decodeOpcode_some ho'
  obtain ⟨-, hinj⟩ := Params.legal_spec hp ho
  rw [ho', hinj o' hpres (hb.trans hbyte.symm)]

/-- The search fails exactly where no mnemonic that is present has the byte (R78), whatever the map. -/
theorem decodeOpcode_eq_none_iff {p : Params} {b : Word} :
    decodeOpcode p b = none ↔ ∀ o : Op, ¬ (p.present o = true ∧ p.opmap.byte o = b) := by
  simp [decodeOpcode]

/-- The byte of a mnemonic decodes to it exactly when the mnemonic is present (R79). -/
theorem decodeOpcode_byte_iff {p : Params} (hp : p.legal = true) (o : Op) :
    decodeOpcode p (p.opmap.byte o) = some o ↔ p.present o = true := by
  simp [decodeOpcode_eq_some_iff hp]

/-! ## The operand words and the whole instruction -/

/-- An instruction has as many operand words as its format says (R71). -/
@[simp] theorem Instr.operandWords_length (i : Instr) : i.operandWords.length = i.op.operands := by
  cases i <;> rfl

/-- The operand fetch of an instruction whose operand words stand at offsets 1 and 2 reads those words: the converse of
`fetchOperands_ok`. -/
theorem fetchOperands_of_operandWords {ε : Type} {read : Nat → Except ε Word} {i : Instr}
    (hread : ∀ k w, i.operandWords[k]? = some w → read (k + 1) = .ok w) :
    fetchOperands read i.op.operands = .ok (i.operandWords.getD 0 0, i.operandWords.getD 1 0) := by
  have htwo := i.op.operands_le
  rw [← i.operandWords_length] at htwo ⊢
  match hw : i.operandWords with
  | [] => rfl
  | [a] =>
    have h1 : read 1 = .ok a := hread 0 a (by rw [hw]; rfl)
    simp [fetchOperands, h1]
  | [a, b] =>
    have h1 : read 1 = .ok a := hread 0 a (by rw [hw]; rfl)
    have h2 : read 2 = .ok b := hread 1 b (by rw [hw]; rfl)
    simp [fetchOperands, h1, h2]
  | _ :: _ :: _ :: _ => simp [hw] at htwo

/-- `decodeFrom_ok` both ways: a source of words decodes to an instruction exactly when it has an opcode of the
instruction's mnemonic at offset 0 and the operand words after it. -/
theorem decodeFrom_eq_ok_iff {ε : Type} {p : Params} {read : Nat → Except ε Word} {unknown : Word → ε} {i : Instr} :
    decodeFrom p read unknown = .ok i ↔
      ∃ b, read 0 = .ok b ∧ decodeOpcode p b = some i.op ∧
        ∀ k w, i.operandWords[k]? = some w → read (k + 1) = .ok w := by
  refine ⟨decodeFrom_ok, fun ⟨b, h0, hb, hread⟩ => ?_⟩
  have hf := fetchOperands_of_operandWords hread
  simp only [decodeFrom, h0, hb, hf]
  rw [← i.eq_instr]

/-! ## Lists of words -/

theorem wordAt_eq_ok_iff {ws : List Word} {k : Nat} {w : Word} : wordAt ws k = .ok w ↔ ws[k]? = some w := by
  unfold wordAt
  cases ws[k]? <;> simp

theorem decode_eq_ok_iff_decodeFrom {p : Params} {ws rest : List Word} {i : Instr} :
    decode p ws = .ok (i, rest) ↔
      decodeFrom p (wordAt ws) .unknownOpcode = .ok i ∧ rest = ws.drop i.op.width := by
  unfold decode
  cases decodeFrom p (wordAt ws) .unknownOpcode with
  | error e => simp
  | ok j =>
    simp only [Except.ok.injEq, Prod.mk.injEq]
    exact ⟨fun ⟨hi, hrest⟩ => ⟨hi, hi ▸ hrest.symm⟩, fun ⟨hi, hrest⟩ => ⟨hi, hi ▸ hrest.symm⟩⟩

/-- An instruction's width is its opcode and its operand words. -/
theorem drop_width (b : Word) (i : Instr) (rest : List Word) :
    (b :: (i.operandWords ++ rest)).drop i.op.width = rest := by
  rw [Op.width, Nat.add_comm, List.drop_succ_cons, ← i.operandWords_length, List.drop_left]

/-- A list decodes to an instruction exactly when it is an opcode byte of the instruction's mnemonic, the instruction's
operand words, and the rest (R70, R71). -/
theorem decode_eq_ok_iff {p : Params} {ws rest : List Word} {i : Instr} :
    decode p ws = .ok (i, rest) ↔
      ∃ b, ws = b :: (i.operandWords ++ rest) ∧ decodeOpcode p b = some i.op := by
  rw [decode_eq_ok_iff_decodeFrom, decodeFrom_eq_ok_iff]
  simp only [wordAt_eq_ok_iff]
  constructor
  · rintro ⟨⟨b, h0, hb, hwords⟩, rfl⟩
    obtain ⟨tail, rfl⟩ : ∃ tail, ws = b :: tail := by
      cases ws with
      | nil => simp at h0
      | cons c tail => exact ⟨tail, by simpa using h0⟩
    obtain ⟨after, rfl⟩ : i.operandWords <+: tail :=
      List.prefix_iff_getElem?.2 fun k hk => by simpa using hwords k _ (List.getElem?_eq_getElem hk)
    exact ⟨b, by rw [drop_width], hb⟩
  · rintro ⟨b, rfl, hb⟩
    refine ⟨⟨b, rfl, hb, fun k w hk => ?_⟩, (drop_width b i rest).symm⟩
    obtain ⟨hlt, -⟩ := List.getElem?_eq_some_iff.1 hk
    rw [List.getElem?_cons_succ, List.getElem?_append_left hlt, hk]

/-- Under a legal map the encoding of an instruction that is present decodes to it. -/
theorem decode_encode {p : Params} (hp : p.legal = true) {i : Instr} (hi : p.present i.op = true) (rest : List Word) :
    decode p (encode p i ++ rest) = .ok (i, rest) :=
  decode_eq_ok_iff.2 ⟨p.opmap.byte i.op, rfl, (decodeOpcode_byte_iff hp i.op).2 hi⟩

/-- An undefined byte at the head of a list is rejected, whatever follows (R78). -/
theorem decode_of_undefined {p : Params} {b : Word} (hb : decodeOpcode p b = none) (ws : List Word) :
    decode p (b :: ws) = .error (.unknownOpcode b) := by
  simp [decode, decodeFrom, wordAt, hb]

/-! ## How many bytes are opcodes -/

/-- The bytes that decode, in ascending order. -/
def Params.definedBytes (p : Params) : List Nat :=
  (List.range 256).filter fun n => (decodeOpcode p (BitVec.ofNat 8 n)).isSome

theorem Params.definedBytes_nodup (p : Params) : p.definedBytes.Nodup := List.nodup_range.filter _

/-- The bytes that decode under a legal map are the bytes of the mnemonics that are present. -/
theorem Params.mem_definedBytes_iff {p : Params} (hp : p.legal = true) {n : Nat} :
    n ∈ p.definedBytes ↔ ∃ o, p.present o = true ∧ (p.opmap.byte o).toNat = n := by
  simp only [definedBytes, List.mem_filter, List.mem_range, Option.isSome_iff_exists, decodeOpcode_eq_some_iff hp]
  constructor
  · rintro ⟨hn, o, ho, hb⟩
    exact ⟨o, ho, by rw [hb, BitVec.toNat_ofNat]; omega⟩
  · rintro ⟨o, ho, rfl⟩
    exact ⟨(p.opmap.byte o).isLt, o, ho, by simp⟩

/-- Under a legal map as many bytes decode as mnemonics are present: the two lists are permutations of each other. -/
theorem Params.definedBytes_length {p : Params} (hp : p.legal = true) :
    p.definedBytes.length = (Op.all.filter p.present).length := by
  have hnodup : ((Op.all.filter p.present).map fun o => (p.opmap.byte o).toNat).Nodup := by
    refine List.Nodup.map_on (fun o ho o' ho' hbyte => ?_) (List.Nodup.filter _ (by decide))
    obtain ⟨-, hinj⟩ := Params.legal_spec hp (List.mem_filter.1 ho).2
    exact hinj o' (List.mem_filter.1 ho').2 (BitVec.eq_of_toNat_eq hbyte)
  have hperm : p.definedBytes.Perm ((Op.all.filter p.present).map fun o => (p.opmap.byte o).toNat) :=
    (List.perm_ext_iff_of_nodup p.definedBytes_nodup hnodup).2 fun n => by
      simp [Params.mem_definedBytes_iff hp]
  rw [hperm.length_eq, List.length_map]

end Sys2Proof

namespace Sys2Proof.Proofs.Encoding

/-- Settles O2, by `decode_encode`. -/
theorem decodeOfEncodeIsTheInstruction : Obligations.DecodeOfEncodeIsTheInstruction :=
  fun _ _ rest hp hi => decode_encode hp hi rest

/-- Settles O3: what decodes is an opcode byte and the operand words, and that byte is the present mnemonic's own. -/
theorem encodeOfDecodeIsTheWords : Obligations.EncodeOfDecodeIsTheWords := by
  intro p ws rest i h
  obtain ⟨b, rfl, hb⟩ := decode_eq_ok_iff.1 h
  obtain ⟨hpres, rfl⟩ := decodeOpcode_some hb
  exact ⟨rfl, hpres⟩

/-- Settles O4: the opcode decoder's two answers. -/
theorem opcodeDecodeIsExactMatch : Obligations.OpcodeDecodeIsExactMatch :=
  fun _ _ hp => ⟨fun _ => decodeOpcode_eq_some_iff hp, decodeOpcode_eq_none_iff⟩

/-- Settles O6: the operand words that decoding consumes are as many as bits 7:6 of the byte say, since the map is
legal. -/
theorem opcodeHighBitsGiveTheLength : Obligations.OpcodeHighBitsGiveTheLength := by
  intro p b ws rest i hp h
  obtain ⟨b', hws, hb⟩ := decode_eq_ok_iff.1 h
  obtain ⟨rfl, rfl⟩ := List.cons.inj hws
  obtain ⟨hpres, rfl⟩ := decodeOpcode_some hb
  obtain ⟨hbits, -⟩ := Params.legal_spec hp hpres
  have hlen : i.operandWords.length = (p.opmap.byte i.op).toNat / 64 := i.operandWords_length.trans hbits.symm
  exact ⟨by rw [List.length_append, hlen], hlen⟩

/-- Settles O7: `decodeOpcode_byte_iff` for the three conditional rows. -/
theorem optionalRowsFollowTheirParameters : Obligations.OptionalRowsFollowTheirParameters :=
  fun _ hp => ⟨decodeOpcode_byte_iff hp .sub, decodeOpcode_byte_iff hp .jgt, decodeOpcode_byte_iff hp .jlt⟩

/-- Settles O1: the vectors with an instruction are encodings (`decode_encode`), the others begin with an undefined
byte. -/
theorem wordsDecodeAsTheTableSays : Obligations.WordsDecodeAsTheTableSays := by
  have byDefault (i : Instr) (hi : Params.default.present i.op = true) :
      decode Params.default (encode Params.default i) = .ok (i, []) := by
    simpa using decode_encode (by decide : Params.default.legal = true) hi []
  have withAllRows (i : Instr) (hi : Params.allRows.present i.op = true) :
      decode Params.allRows (encode Params.allRows i) = .ok (i, []) := by
    simpa using decode_encode (by decide : Params.allRows.legal = true) hi []
  exact ⟨byDefault .hlt rfl, byDefault .ret rfl, byDefault (.push 3) rfl, byDefault (.pop 0) rfl,
    byDefault (.prn 7) rfl, byDefault (.call 1) rfl, byDefault (.jmp 2) rfl, byDefault (.jeq 2) rfl,
    byDefault (.jne 2) rfl, byDefault (.ldi 1 0x82) rfl, byDefault (.add 0 1) rfl, byDefault (.sub 2 3) rfl,
    byDefault (.mul 0 1) rfl, byDefault (.cmp 0 1) rfl, withAllRows (.jgt 2) rfl, withAllRows (.jlt 2) rfl,
    decode_of_undefined rfl _, decode_of_undefined rfl _, decode_of_undefined rfl _, decode_of_undefined rfl _⟩

/-- Settles O5: the three maps are legal, so the counts are those of the mnemonics present. -/
theorem fourteenBytesAreOpcodes : Obligations.FourteenBytesAreOpcodes :=
  ⟨Params.definedBytes_length (p := .default) (by decide),
    Params.definedBytes_length (p := { Params.default with hasSub := false }) (by decide),
    Params.definedBytes_length (p := .allRows) (by decide), rfl⟩

end Sys2Proof.Proofs.Encoding
end

section
/-! PROOF. The dispatcher (40_dispatcher.md): which steps are taken, which instruction a step performs, and which
conditions the fetch and the register operand check raise. -/

namespace Sys2Proof.Machine

/-! ## The words a fetch reads -/

/-- `MemRead` answers exactly inside memory, with the word at the address. -/
theorem State.memRead_eq_ok_iff {s : State} {a : Nat} {w : Word} :
    s.memRead a = .ok w ↔ a ≤ 255 ∧ Memory.read s.mem a = w := by
  by_cases ha : a < 256
  · simp [s.memRead_ok ha, Nat.le_of_lt_succ ha]
  · simp [s.memRead_error ha, show ¬ a ≤ 255 by omega]

/-- A fetch answers an instruction exactly when an opcode of its mnemonic stands at pc and its operand words after it,
all inside memory. -/
theorem fetch_eq_ok_iff {s : State} {i : Instr} :
    s.fetch = .ok i ↔
      ∃ b, s.memRead s.pc = .ok b ∧ decodeOpcode s.params b = some i.op ∧
        ∀ k w, i.operandWords[k]? = some w → s.memRead (s.pc + (k + 1)) = .ok w :=
  decodeFrom_eq_ok_iff

/-- A present instruction whose encoding stands word by word at pc, inside memory, is fetched. -/
theorem fetch_of_encode {s : State} {i : Instr} (hp : s.params.legal = true) (hi : s.params.present i.op = true)
    (hwords : ∀ k w, (encode s.params i)[k]? = some w → s.memRead (s.pc + k) = .ok w) : s.fetch = .ok i :=
  fetch_eq_ok_iff.2 ⟨s.params.opmap.byte i.op, hwords 0 _ rfl, (decodeOpcode_byte_iff hp i.op).2 hi,
    fun k w hk => hwords (k + 1) w hk⟩

/-- The words from pc to the end of memory. -/
def State.wordsAhead (s : State) : List Word := (List.range (256 - s.pc)).map s.wordAhead

/-- Every word ahead is the one a fetch reads at that offset. -/
theorem State.memRead_of_wordAt {s : State} {k : Nat} {w : Word} (h : wordAt s.wordsAhead k = .ok w) :
    s.memRead (s.pc + k) = .ok w := by
  obtain ⟨hk, hw⟩ := List.getElem?_eq_some_iff.1 (wordAt_eq_ok_iff.1 h)
  have hlen : k < 256 - s.pc := by simpa [State.wordsAhead] using hk
  refine State.memRead_eq_ok_iff.2 ⟨by omega, ?_⟩
  simpa [State.wordsAhead, State.wordAhead] using hw

/-- A fetch answers the instruction that the words ahead decode to. -/
theorem fetch_of_decode {s : State} {i : Instr} {rest : List Word}
    (h : decode s.params s.wordsAhead = .ok (i, rest)) : s.fetch = .ok i := by
  obtain ⟨hfrom, -⟩ := decode_eq_ok_iff_decodeFrom.1 h
  exact decodeFrom_congr _ (fun _ _ hk => State.memRead_of_wordAt hk) hfrom

/-- The opcode fetch beyond memory (R103). -/
theorem fetch_of_pc_beyond {s : State} (hpc : 255 < s.pc) : s.fetch = .error (.outOfBounds .mem s.pc s.pc) := by
  obtain ⟨-, hf⟩ | ⟨hin, -⟩ | ⟨-, hin, -⟩ := fetch_cases s
  · exact hf
  · omega
  · omega

/-! ## When a step is taken -/

/-- Every instruction answers a next state: no meaning ends in a fault or a refusal. -/
theorem exec_next (i : Instr) (s : State) : ∃ t, exec i s = .next t := by
  obtain ⟨t, h, -⟩ | ⟨c, h, -⟩ := exec_cases i s
  · exact ⟨t, h⟩
  · exact ⟨s.raise c, h⟩

/-- A running machine takes a step, whatever its fetch answers. -/
theorem step_of_running {s : State} (hrun : s.run = .running) : ∃ t, step s = .next t := by
  cases hf : s.fetch with
  | ok i =>
    rw [step_of_fetch hrun hf]
    exact exec_next i s
  | error c => exact ⟨s.raise c, step_of_fetch_error hrun hf⟩

theorem step_of_halted {s : State} (hrun : s.run = .halted) : step s = .fault .halted := by
  simp only [step, State.beginStep, hrun]

theorem step_of_fatal {s : State} {c : Cause} (hrun : s.run = .fatal c) : step s = .fault (.stopped c) := by
  simp only [step, State.beginStep, hrun]

end Sys2Proof.Machine

namespace Sys2Proof.Proofs.Dispatcher

open Sys2Proof.Machine

/-- Settles O9, by `fetch_of_encode`. -/
theorem stepRunsTheInstructionInMemory : Obligations.StepRunsTheInstructionInMemory :=
  fun _ _ hrun hp hi hwords => step_of_fetch hrun (fetch_of_encode hp hi hwords)

/-- Settles O10: a step that answers a state started in Running (`step_cases`), and a running machine takes one. -/
theorem stepExistsExactlyWhileRunning : Obligations.StepExistsExactlyWhileRunning := by
  refine fun s => ⟨⟨fun ⟨t, h⟩ => ?_, step_of_running⟩, step_of_halted, fun _ => step_of_fatal⟩
  obtain ⟨hrun, -⟩ := step_cases h
  exact hrun

/-- Settles O14: such an operand is a cause for which the instruction is refused. -/
theorem registerOperandAboveSevenIsFatal : Obligations.RegisterOperandAboveSevenIsFatal :=
  fun _ _ w hw => (Refused.regOperand w hw).exec_eq

/-- Settles O18: a well-formed instruction performs, and `Performed.run` gives the run state. -/
theorem wellFormedInstructionsComplete : Obligations.WellFormedInstructionsComplete := by
  intro i s hwf hcall
  obtain ⟨t, hexec, hp⟩ := exec_of_wellFormed hwf hcall
  exact ⟨t, hexec, hp.run⟩

/-- Settles O8, by `fetch_of_decode`. -/
theorem stepRunsTheDecodedInstruction : Obligations.StepRunsTheDecodedInstruction :=
  fun _ _ _ hrun h => step_of_fetch hrun (fetch_of_decode h)

/-- Settles O11: the fetch raises at pc = 256, and a condition raised changes run and output only. -/
theorem opcodeFetchBeyondMemoryIsFatal : Obligations.OpcodeFetchBeyondMemoryIsFatal := by
  intro s hrun hpc
  have hf : s.fetch = .error (.outOfBounds .mem 256 256) := by
    rw [fetch_of_pc_beyond (by omega), hpc]
  rw [step_of_fetch_error hrun hf, s.raise_eq]

/-- Settles O12: the opcode word is inside memory and undefined, so the fetch ends there (`fetch_of_undefined`). -/
theorem undefinedOpcodeIsDecodeError : Obligations.UndefinedOpcodeIsDecodeError := by
  intro s b hrun hread hnone
  obtain ⟨hpc, rfl⟩ := State.memRead_eq_ok_iff.1 hread
  exact step_of_fetch_error hrun (fetch_of_undefined hpc hnone)

/-- Settles O13: in both cases the operands end beyond memory (`fetch_of_operands_beyond`). -/
theorem operandFetchBeyondMemoryIsFatal : Obligations.OperandFetchBeyondMemoryIsFatal := by
  intro s b o hrun hread hsome
  obtain ⟨hpc, rfl⟩ := State.memRead_eq_ok_iff.1 hread
  have raises (hout : 255 < s.pc + o.operands) : step s = .next (s.raise (.outOfBounds .mem 256 s.pc)) :=
    step_of_fetch_error hrun (fetch_of_operands_beyond hpc hsome hout)
  refine ⟨fun h255 hone => ?_, fun h254 htwo => ?_⟩
  · rw [raises (by omega), h255]
  · rw [raises (by omega), h254]

end Sys2Proof.Proofs.Dispatcher
end

section
/-! PROOF. The results of LDI and PRN (41_ldi_prn.md): with its operand in 0..7 each performs, so `Performed.exec_eq`
names the state it makes. -/

namespace Sys2Proof.Proofs.LdiPrn

open Sys2Proof.Machine

/-- Settles O36: the state LDI makes, `setReg` then `advance 3`, is the record of R120 by definition. -/
theorem ldiResult : Obligations.LdiResult :=
  fun _ r imm h => (Performed.ldi r imm ⟨r.toNat, h⟩ rfl).exec_eq

/-- Settles O37: the state PRN makes, `emit` then `advance 2`, is the record of R121 by definition. -/
theorem prnResult : Obligations.PrnResult :=
  fun _ r h => (Performed.prn r ⟨r.toNat, h⟩ rfl).exec_eq

end Sys2Proof.Proofs.LdiPrn
end

section
/-! PROOF. The ALU (42_alu.md): the results of ADD, SUB, MUL and CMP, the jumps CMP's flags decide, and why no step
ends in `UnsupportedOperation`. -/

namespace Sys2Proof.Machine

/-! ## Word arithmetic as the narrowing of R133 -/

theorem word_add_eq_ofNat (x y : Word) : x + y = BitVec.ofNat 8 ((x.toNat + y.toNat) % 256) :=
  BitVec.eq_of_toNat_eq (by simp)

theorem word_mul_eq_ofNat (x y : Word) : x * y = BitVec.ofNat 8 ((x.toNat * y.toNat) % 256) :=
  BitVec.eq_of_toNat_eq (by simp)

/-- The two cases of R133 for a difference. -/
theorem word_sub_eq_ofNat (x y : Word) :
    x - y = BitVec.ofNat 8 (if y.toNat ≤ x.toNat then x.toNat - y.toNat else 256 + x.toNat - y.toNat) := by
  have hx := x.isLt
  have hy := y.isLt
  apply BitVec.eq_of_toNat_eq
  rw [BitVec.toNat_sub, BitVec.toNat_ofNat]
  split <;> omega

/-! ## CMP's flags and the conditional jumps -/

/-- The column of FL in the table of R138. -/
theorem Flags.compare_toByte (x y : Word) :
    (Flags.compare x y).toByte =
      if x.toNat = y.toNat then 0b00000001 else if x.toNat < y.toNat then 0b00000100 else 0b00000010 := by
  unfold Flags.compare
  rcases Nat.lt_trichotomy x.toNat y.toNat with hlt | heq | hgt
  · rw [if_neg (Nat.not_lt_of_gt hlt), if_pos hlt, if_neg (Nat.ne_of_lt hlt), if_pos hlt]
    rfl
  · rw [heq, if_neg (Nat.lt_irrefl _), if_neg (Nat.lt_irrefl _), if_pos rfl]
    rfl
  · rw [if_pos hgt, if_neg (Nat.ne_of_gt hgt), if_neg (Nat.not_lt_of_gt hgt)]
    rfl

/-- A jump or the advance past it differ in pc alone. -/
theorem State.ite_jump_advance (s : State) (c : Bool) (v : Word) (n : Nat) :
    (if c then s.jump v else s.advance n) = { s with pc := if c then v.toNat else s.pc + n } := by
  cases c <;> rfl

theorem State.ite_advance_jump (s : State) (c : Bool) (v : Word) (n : Nat) :
    (if c then s.advance n else s.jump v) = { s with pc := if c then s.pc + n else v.toNat } := by
  cases c <;> rfl

section ConditionalJumps

variable (s : State) {r : Word} (hr : r.toNat < 8)

theorem exec_jeq :
    exec (.jeq r) s = .next { s with pc := if s.fl.e then (s.regs[r.toNat]'hr).toNat else s.pc + 2 } :=
  (Performed.jeq r ⟨r.toNat, hr⟩ rfl).exec_eq.trans (congrArg _ (s.ite_jump_advance ..))

theorem exec_jne :
    exec (.jne r) s = .next { s with pc := if s.fl.e then s.pc + 2 else (s.regs[r.toNat]'hr).toNat } :=
  (Performed.jne r ⟨r.toNat, hr⟩ rfl).exec_eq.trans (congrArg _ (s.ite_advance_jump ..))

theorem exec_jgt :
    exec (.jgt r) s = .next { s with pc := if s.fl.g then (s.regs[r.toNat]'hr).toNat else s.pc + 2 } :=
  (Performed.jgt r ⟨r.toNat, hr⟩ rfl).exec_eq.trans (congrArg _ (s.ite_jump_advance ..))

theorem exec_jlt :
    exec (.jlt r) s = .next { s with pc := if s.fl.l then (s.regs[r.toNat]'hr).toNat else s.pc + 2 } :=
  (Performed.jlt r ⟨r.toNat, hr⟩ rfl).exec_eq.trans (congrArg _ (s.ite_jump_advance ..))

end ConditionalJumps

/-! ## The conditions a fetch raises -/

/-- A fetch raises no condition of the ALU. -/
theorem fetch_error_ne_unsupportedOperation {s : State} {c : Cause} (h : s.fetch = .error c) (name : String)
    (q : Nat) : c ≠ .unsupportedOperation name q := by
  obtain ⟨-, hf⟩ | ⟨-, -, hf⟩ | ⟨o, -, -, ⟨-, -, hf⟩ | ⟨-, -, hf⟩ | ⟨-, hf⟩⟩ := fetch_cases s <;>
    rw [hf] at h <;> cases h <;> exact nofun

end Sys2Proof.Machine

namespace Sys2Proof.Proofs.Alu

open Sys2Proof.Machine

/-- Settles O38: with operands in 0..7 ADD performs, and its sum is narrowed as R133 says. -/
theorem addResult : Obligations.AddResult := by
  intro s a b ha hb
  rw [← word_add_eq_ofNat]
  exact (Performed.add a b ⟨a.toNat, ha⟩ ⟨b.toNat, hb⟩ rfl rfl).exec_eq

/-- Settles O39: with operands in 0..7 SUB performs, and its difference is narrowed as R133 says. -/
theorem subResult : Obligations.SubResult := by
  intro s a b ha hb
  rw [← word_sub_eq_ofNat]
  exact (Performed.sub a b ⟨a.toNat, ha⟩ ⟨b.toNat, hb⟩ rfl rfl).exec_eq

/-- Settles O40: with operands in 0..7 MUL performs, and its product is narrowed as R133 says. -/
theorem mulResult : Obligations.MulResult := by
  intro s a b ha hb
  rw [← word_mul_eq_ofNat]
  exact (Performed.mul a b ⟨a.toNat, ha⟩ ⟨b.toNat, hb⟩ rfl rfl).exec_eq

/-- Settles O41: with operands in 0..7 CMP performs, and `Flags.compare_eq` gives the three bits. -/
theorem cmpResult : Obligations.CmpResult := by
  intro s a b ha hb
  rw [← Flags.compare_eq]
  exact (Performed.cmp a b ⟨a.toNat, ha⟩ ⟨b.toNat, hb⟩ rfl rfl).exec_eq

/-- Settles O42: each jump tests the bit that CMP set from the relation, and reads a register CMP left alone. -/
theorem compareThenJumpTable : Obligations.CompareThenJumpTable := by
  refine ⟨fun s t a b r ha hb hr hcmp => ?_, fun s r hr hfl => ?_⟩
  · rw [cmpResult s a b ha hb, ← Flags.compare_eq] at hcmp
    cases hcmp
    refine ⟨Flags.compare_toByte _ _, ?_, ?_, ?_, ?_⟩
    · simp only [exec_jeq _ hr, Flags.compare_eq, decide_eq_true_eq]
    · simp only [exec_jne _ hr, Flags.compare_eq, decide_eq_true_eq]
    · simp only [exec_jlt _ hr, Flags.compare_eq, decide_eq_true_eq]
    · simp only [exec_jgt _ hr, Flags.compare_eq, decide_eq_true_eq]
  · have hclear : s.fl = ⟨false, false, false⟩ := hfl
    refine ⟨by rw [hclear]; rfl, ?_, ?_, ?_, ?_⟩
    · rw [exec_jeq s hr, hclear]; rfl
    · rw [exec_jne s hr, hclear]; rfl
    · rw [exec_jlt s hr, hclear]; rfl
    · rw [exec_jgt s hr, hclear]; rfl

/-- Settles O19: an instruction that performs leaves no fatal run state, one that is refused raises `OutOfBounds`, and a
fetch raises no condition of the ALU. -/
theorem unsupportedOperationIsUnreachable : Obligations.UnsupportedOperationIsUnreachable := by
  refine ⟨fun _ _ _ _ => rfl, fun s t name q h hfatal => ?_⟩
  obtain ⟨hrun, ⟨i, -, hexec⟩ | ⟨c, hfetch, rfl⟩⟩ := step_cases h
  · obtain hp | ⟨c, rfl, hrefused⟩ := exec_inv hexec
    · exact hp.not_crashed hrun ⟨_, hfatal⟩
    · obtain ⟨sp, n, rfl⟩ := hrefused.outOfBounds
      cases hfatal
  · exact fetch_error_ne_unsupportedOperation hfetch name q (RunState.fatal.inj hfatal)

end Sys2Proof.Proofs.Alu
end

section
/-! PROOF. The stack (43_stack.md): the results of PUSH and POP, and the LIFO law of R154. The law goes through the
words that lie below the SP before the pushes: a run of PUSHes lays them there, a run of POPs takes them back. -/

namespace Sys2Proof.Machine

/-- SP after a register write, SP being x[7] (R22). -/
theorem State.setReg_sp (s : State) (d : Fin 8) (v : Word) : (s.setReg d v).sp = if d = 7 then v else s.sp :=
  s.setReg_reg d 7 v

/-! ## Runs of instructions -/

theorem execAll_cons {i : Instr} {s t : State} (h : exec i s = .next t) (is : List Instr) :
    execAll (i :: is) s = execAll is t := by
  simp only [execAll, h]

theorem execAll_append {is : List Instr} {s t : State} (h : execAll is s = .next t) (js : List Instr) :
    execAll (is ++ js) s = execAll js t := by
  induction is generalizing s with
  | nil => cases h; rfl
  | cons i is ih =>
    obtain ⟨s', hs'⟩ := exec_next i s
    rw [execAll_cons hs'] at h
    rw [List.cons_append, execAll_cons hs', ih h]

/-! ## The words below a stack pointer -/

/-- The words `ws` lie below `base` as PUSHes from SP = `base` lay them: the first one directly below, each later one
below the one before. -/
def Memory.HoldsBelow (m : Memory) (base : Word) (ws : List Word) : Prop :=
  ∀ k w, ws[k]? = some w → Memory.read m (base - BitVec.ofNat 8 (k + 1)).toNat = w

theorem Memory.holdsBelow_concat {m : Memory} {base w : Word} {ws : List Word} :
    Memory.HoldsBelow m base (ws ++ [w]) ↔
      Memory.HoldsBelow m base ws ∧ Memory.read m (base - BitVec.ofNat 8 (ws.length + 1)).toNat = w := by
  constructor
  · refine fun h => ⟨fun k x hk => h k x ?_, h _ w List.getElem?_concat_length⟩
    obtain ⟨hlt, -⟩ := List.getElem?_eq_some_iff.1 hk
    rwa [List.getElem?_append_left hlt]
  · rintro ⟨hws, hw⟩ k x hk
    obtain ⟨hlt, -⟩ := List.getElem?_eq_some_iff.1 hk
    rw [List.length_append, List.length_singleton] at hlt
    obtain hlt | rfl : k < ws.length ∨ k = ws.length := by omega
    · rw [List.getElem?_append_left hlt] at hk
      exact hws k x hk
    · rw [List.getElem?_concat_length] at hk
      exact hw.trans (Option.some.inj hk)

/-- The 256 places below a word are different addresses. -/
theorem word_sub_ofNat_ne (base : Word) {j k : Nat} (hj : j < 256) (hk : k < 256) (h : j ≠ k) :
    (base - BitVec.ofNat 8 (j + 1)).toNat ≠ (base - BitVec.ofNat 8 (k + 1)).toNat := by
  have hbase := base.isLt
  simp only [BitVec.toNat_sub, BitVec.toNat_ofNat]
  omega

/-- One word less below, one word up. -/
theorem word_sub_ofNat_sub_one (base : Word) (n : Nat) :
    base - BitVec.ofNat 8 n - 1 = base - BitVec.ofNat 8 (n + 1) := by
  rw [← BitVec.ofNat_add_ofNat, BitVec.sub_sub]
  rfl

/-- Writing the next word below leaves the words above it, as long as they do not reach round memory. -/
theorem Memory.HoldsBelow.write {m : Memory} {base : Word} {ws : List Word} (h : Memory.HoldsBelow m base ws)
    (hm : Memory.wf m) (hlen : ws.length < 256) (w : Word) :
    Memory.HoldsBelow (Memory.write m (base - BitVec.ofNat 8 (ws.length + 1)).toNat w) base (ws ++ [w]) := by
  refine Memory.holdsBelow_concat.2 ⟨fun k x hk => ?_, Memory.read_write_same hm _ w⟩
  obtain ⟨hlt, -⟩ := List.getElem?_eq_some_iff.1 hk
  rw [Memory.read_write_other _ _ (word_sub_ofNat_ne base (by omega) hlen (by omega))]
  exact h k x hk

/-! ## A run of PUSHes -/

/-- The register an operand word in 0..6 names, which is not SP. -/
theorem exists_reg_ne_sp {r : Word} (h : r.toNat < 7) : ∃ d : Fin 8, r.toNat = d.val ∧ d ≠ 7 :=
  ⟨⟨r.toNat, by omega⟩, rfl, fun h7 => by simp [Fin.ext_iff] at h7; omega⟩

/-- What PUSHes of the registers `rs`, none of them SP, make of `s`. -/
structure Pushed (s : State) (rs : List Word) (t : State) : Prop where
  mem_wf : Memory.wf t.mem
  sp : t.sp = s.sp - BitVec.ofNat 8 rs.length
  reg : ∀ d : Fin 8, d ≠ 7 → t.reg d = s.reg d
  holds : Memory.HoldsBelow t.mem s.sp (rs.map s.regW)

theorem Pushed.nil {s : State} (hm : Memory.wf s.mem) : Pushed s [] s where
  mem_wf := hm
  sp := by simp
  reg _ _ := rfl
  holds := nofun

/-- One PUSH more. -/
theorem Pushed.push {s t : State} {rs : List Word} (h : Pushed s rs t) {r : Word} (hr : r.toNat < 7)
    (hlen : rs.length < 256) : ∃ t', exec (.push r) t = .next t' ∧ Pushed s (rs ++ [r]) t' := by
  obtain ⟨d, hd, hd7⟩ := exists_reg_ne_sp hr
  have hp := Performed.push (s := t) r d hd
  have hsp : t.sp - 1 = s.sp - BitVec.ofNat 8 (rs.length + 1) := by rw [h.sp, word_sub_ofNat_sub_one]
  have hword : t.decSp.reg d = s.regW r := by rw [t.decSp_reg_other hd7, h.reg d hd7, s.regW_eq hd]
  refine ⟨_, hp.exec_eq, hp.mem_wf h.mem_wf, ?sp, fun e he => (t.decSp_reg_other he).trans (h.reg e he), ?holds⟩
  case sp => simpa using hsp
  case holds =>
    have hwritten := h.holds.write h.mem_wf (by simpa using hlen) (s.regW r)
    rw [List.length_map, ← hsp, ← hword] at hwritten
    rw [List.map_append, List.map_singleton, ← hword]
    exact hwritten

theorem execAll_push {s : State} {rs : List Word} (hm : Memory.wf s.mem) (hlen : rs.length ≤ 256)
    (hrs : ∀ r ∈ rs, r.toNat < 7) : ∃ t, execAll (rs.map .push) s = .next t ∧ Pushed s rs t := by
  induction rs using List.reverseRecOn with
  | nil => exact ⟨s, rfl, .nil hm⟩
  | append_singleton rs r ih =>
    rw [List.length_append, List.length_singleton] at hlen
    obtain ⟨t, hrun, ht⟩ := ih (by omega) fun q hq => hrs q (by simp [hq])
    obtain ⟨t', hexec, ht'⟩ := ht.push (hrs r (by simp)) (by omega)
    exact ⟨t', by rw [List.map_append, execAll_append hrun, List.map_singleton, execAll_cons hexec]; rfl, ht'⟩

/-! ## A run of POPs -/

/-- What POPs of the registers `rs`, none of them SP, make of `u`, when they give each register the word `f` has for it
and end with SP = `base`. -/
structure Popped (u : State) (base : Word) (f : Word → Word) (rs : List Word) (v : State) : Prop where
  sp : v.sp = base
  mem : v.mem = u.mem
  out : v.out = u.out
  named : ∀ r ∈ rs, v.regW r = f r
  other : ∀ d : Fin 8, d ≠ 7 → (∀ r ∈ rs, r.toNat ≠ d.val) → v.reg d = u.reg d

/-- A POP of a register other than SP, SP not 0xF4. -/
theorem exec_pop_one (u : State) {r : Word} (hr : r.toNat < 7) (hs : u.sp ≠ 0xF4) :
    ∃ v, exec (.pop r) u = .next v ∧
      Popped u (u.sp + 1) (fun _ => Memory.read u.mem u.sp.toNat) [r] v := by
  obtain ⟨d, hd, hd7⟩ := exists_reg_ne_sp hr
  have hp := Performed.pop (s := u) r d hd hs
  refine ⟨_, hp.exec_eq, ?sp, rfl, rfl, ?named, ?other⟩
  case sp => rw [State.advance_sp, State.incSp_sp, State.setReg_sp, if_neg hd7]
  case named =>
    intro q hq
    obtain rfl := List.mem_singleton.1 hq
    rw [State.regW_eq _ hd, State.advance_reg, State.incSp_reg_other _ hd7, State.setReg_reg_same]
  case other =>
    intro e he hne
    have hw : writtenRegs (.pop r) u = [r, 7] := if_neg hs
    refine hp.reg_frame fun w hmem => ?_
    rw [hw] at hmem
    obtain rfl | rfl := by simpa using hmem
    · exact hne w (by simp)
    · exact fun h7 => he (Fin.ext h7.symm)

/-- POPs of `rs` after a POP of `r`: should `rs` name `r` again, its word is the one the later POP gave it. -/
theorem Popped.trans {u u' v : State} {base base' : Word} {f : Word → Word} {rs : List Word} {r : Word}
    (hr : r.toNat < 7) (h : Popped u base' f [r] u') (h' : Popped u' base f rs v) : Popped u base f (rs ++ [r]) v where
  sp := h'.sp
  mem := h'.mem.trans h.mem
  out := h'.out.trans h.out
  named q hq := by
    by_cases hqs : q ∈ rs
    · exact h'.named q hqs
    · obtain rfl : q = r := by simpa [hqs] using hq
      obtain ⟨d, hd, hd7⟩ := exists_reg_ne_sp hr
      have hkept : v.reg d = u'.reg d :=
        h'.other d hd7 fun p hp hpd => hqs (BitVec.eq_of_toNat_eq (hd.trans hpd.symm) ▸ hp)
      rw [v.regW_eq hd, hkept, ← u'.regW_eq hd, h.named q (by simp)]
  other d hd7 hd :=
    (h'.other d hd7 fun q hq => hd q (List.mem_append_left [r] hq)).trans
      (h.other d hd7 fun q hq => hd q (List.mem_append_right rs hq))

theorem execAll_pop {base : Word} {f : Word → Word} {rs : List Word} {u : State} (hrs : ∀ r ∈ rs, r.toNat < 7)
    (hne : ∀ k, 1 ≤ k → k ≤ rs.length → base - BitVec.ofNat 8 k ≠ 0xF4)
    (hsp : u.sp = base - BitVec.ofNat 8 rs.length) (hholds : Memory.HoldsBelow u.mem base (rs.map f)) :
    ∃ v, execAll (rs.reverse.map .pop) u = .next v ∧ Popped u base f rs v := by
  induction rs using List.reverseRecOn generalizing u with
  | nil => exact ⟨u, rfl, by simpa using hsp, rfl, rfl, nofun, fun _ _ _ => rfl⟩
  | append_singleton rs r ih =>
    rw [List.length_append, List.length_singleton] at hne hsp
    rw [List.map_append, List.map_singleton, Memory.holdsBelow_concat, List.length_map, ← hsp] at hholds
    obtain ⟨hrest, htop⟩ := hholds
    have hr : r.toNat < 7 := hrs r (by simp)
    obtain ⟨u', hexec, hu'⟩ := exec_pop_one u hr (hsp ▸ hne (rs.length + 1) (by omega) (by omega))
    have hsp' : u'.sp = base - BitVec.ofNat 8 rs.length := by
      rw [hu'.sp, hsp, ← word_sub_ofNat_sub_one]
      exact BitVec.sub_add_cancel _ 1
    obtain ⟨v, hrun, hv⟩ := ih (fun q hq => hrs q (by simp [hq])) (fun k h1 hk => hne k h1 (by omega)) hsp'
      (hu'.mem ▸ hrest)
    have hfirst : Popped u (u.sp + 1) f [r] u' := { hu' with named := by simpa [htop] using hu'.named }
    refine ⟨v, ?_, hfirst.trans hr hv⟩
    rw [List.reverse_concat, List.map_cons, execAll_cons hexec, hrun]

end Sys2Proof.Machine

namespace Sys2Proof.Proofs.Stack

open Sys2Proof.Machine

/-- Settles O54: the PUSHes lay their words below the SP they start from (`execAll_push`), and the POPs in reverse order
take them from there (`execAll_pop`), from any state with that memory and SP. -/
theorem popsReturnThePushedWords : Obligations.PopsReturnThePushedWords := by
  intro s rs hm hlen hrs hne
  obtain ⟨t, hpush, ht⟩ := execAll_push hm (by omega) hrs
  refine ⟨t, hpush, ht.sp, fun u hmem hsp => ?_⟩
  obtain ⟨v, hpop, hv⟩ := execAll_pop (u := u) hrs hne (hsp.trans ht.sp) (hmem ▸ ht.holds)
  exact ⟨v, hpop, hv.sp, hv.named, hv.other, hv.mem, hv.out⟩

/-- Settles O43: the state PUSH makes, `decSp`, `store`, then `advance 2`, read field by field. -/
theorem pushResult : Obligations.PushResult := by
  intro s r h hm
  have hp := Performed.push (s := s) r ⟨r.toNat, h⟩ rfl
  exact ⟨_, hp.exec_eq, rfl, Memory.read_write_same hm _ _, fun a ha => Memory.read_write_other _ _ ha,
    rfl, rfl, rfl, rfl⟩

/-- Settles O44: POP increments the SP it finds after the write of `x[r]`, which for r = 7 is the word loaded (D15). -/
theorem popResult : Obligations.PopResult := by
  intro s r h hs
  have hsp : (s.setReg ⟨r.toNat, h⟩ (Memory.read s.mem s.sp.toNat)).sp + 1 =
      if r.toNat = 7 then Memory.read s.mem s.sp.toNat + 1 else s.sp + 1 := by
    rw [State.setReg_sp, apply_ite (· + 1)]
    simp only [Fin.ext_iff]
    rfl
  rw [← hsp]
  exact (Performed.pop r ⟨r.toNat, h⟩ rfl hs).exec_eq

end Sys2Proof.Proofs.Stack
end

section
/-! PROOF. The control transfers (44_control.md): the results of CALL, RET and the jumps, and the return of a RET to its
CALL (R165), which is read off the two results. -/

namespace Sys2Proof.Proofs.Control

open Sys2Proof.Machine

/-- Settles O46: the state CALL makes, `decSp`, `store`, then `jump`, read field by field. -/
theorem callResult : Obligations.CallResult := by
  intro s r h hm hpc
  have hp := Performed.call (s := s) r ⟨r.toNat, h⟩ rfl hpc
  exact ⟨_, hp.exec_eq, rfl, Memory.read_write_same hm _ _, fun a ha => Memory.read_write_other _ _ ha,
    rfl, rfl, rfl, rfl⟩

/-- Settles O48: the state RET makes, `incSp` then `jump`, is the record of R161 by definition. -/
theorem retResult : Obligations.RetResult :=
  fun _ => Performed.ret.exec_eq

/-- Settles O53: SP stands at the CALL's word, so RET reads the return address there and increments SP past it. -/
theorem callRetRoundTrip : Obligations.CallRetRoundTrip := by
  intro s t u r hm hr hpc hcall hsp hword
  obtain ⟨t', hcall', -, hstored, -⟩ := callResult s r hr hm (by omega)
  obtain rfl : t = t' := Host.Outcome.next.inj (hcall.symm.trans hcall')
  refine ⟨_, retResult u, ?pc, ?sp⟩
  case pc =>
    rw [hsp, hword, hstored, BitVec.toNat_ofNat]
    exact Nat.mod_eq_of_lt (by omega)
  case sp =>
    calc u.incSp.sp = u.sp + 1 := u.incSp_sp
      _ = s.sp := by rw [hsp]; exact BitVec.sub_add_cancel s.sp 1

/-- Settles O47: a return address above 255 is the other cause for which CALL is refused. -/
theorem callAt254IsFatal : Obligations.CallAt254IsFatal := by
  intro s r hr hpc
  have hrefused := Refused.returnAddress (s := s) r rfl hr (by omega)
  rw [hrefused.exec_eq, hpc]

/-- Settles O49: the state JMP makes, `jump`, is the record of R162 by definition. -/
theorem jmpResult : Obligations.JmpResult :=
  fun _ r h => (Performed.jmp r ⟨r.toNat, h⟩ rfl).exec_eq

/-- Settles O50, from `exec_jeq` and `exec_jne`; JNE is taken when the flag is clear, so its branches change places. -/
theorem jeqJneResult : Obligations.JeqJneResult := by
  refine fun s r h => ⟨exec_jeq s h, ?_⟩
  rw [exec_jne s h]
  cases s.fl.e <;> rfl

/-- Settles O51, by `exec_jgt` and `exec_jlt`. -/
theorem jgtJltResult : Obligations.JgtJltResult :=
  fun s _ h => ⟨exec_jgt s h, exec_jlt s h⟩

end Sys2Proof.Proofs.Control
end

section
/-! PROOF. The result of HLT (45_hlt.md): HLT has no operand and no cause to be refused, so its one performed case gives
its result in every state. -/

namespace Sys2Proof.Proofs.Hlt

open Sys2Proof.Machine

/-- Settles O52: the state HLT makes, `advance` then `halt`, is the record of R180 by definition. -/
theorem hltResult : Obligations.HltResult :=
  fun _ => Performed.hlt.exec_eq

end Sys2Proof.Proofs.Hlt
end

section
/-! PROOF. The exceptions (60_exceptions.md): the first cause in the order of R198 is the one a step reports, a fatal step
has no effect but the report, and the diagnostic of an empty-stack POP. The causes of R198 fall into those that a fetch
raises (1 to 4) and those that the fetched instruction is refused for (5 to 7). -/

namespace Sys2Proof

/-- The register operands of the instruction built from a mnemonic and two words, by the mnemonic's format (R71). -/
theorem Op.instr_regOperands (o : Op) (a b : Word) :
    (o.instr a b).regOperands = (if o.format = .z then [] else [a]) ++ (if o.format = .rr then [b] else []) := by
  cases o <;> rfl

end Sys2Proof

namespace Sys2Proof.Machine

/-! ## The causes an instruction is refused for -/

@[simp] theorem causeIf_true (c : Cause) : causeIf true c = [c] := rfl

@[simp] theorem causeIf_false (c : Cause) : causeIf false c = [] := rfl

/-- One word and the cause it raises where it meets a condition. -/
theorem map_filter_singleton (p : Word → Bool) (f : Word → Cause) (w : Word) :
    ([w].filter p).map f = causeIf (p w) (f w) := by
  cases hp : p w <;> simp [hp]

/-- Causes 5 to 7 of R198 for an instruction: its register operands above 7 in operand order, then CALL's return
address. -/
def State.refusalCauses (s : State) (i : Instr) : List Cause :=
  (i.regOperands.filter fun w => decide (7 < w.toNat)).map (fun w => .outOfBounds .reg w.toNat s.pc) ++
    causeIf (decide (i.op = .call ∧ s.pc + 2 > 255)) (.outOfBounds .mem (s.pc + 2) s.pc)

/-- The cause an instruction is refused for is the first of its list. -/
theorem Refused.head?_refusalCauses {s : State} {i : Instr} {c : Cause} (h : Refused s i c) :
    (s.refusalCauses i).head? = some c := by
  cases h with
  | regOperand w hw => simp [State.refusalCauses, hw]
  | returnAddress r hi hr hpc =>
    subst hi
    have hr7 : ¬ 7 < r.toNat := by omega
    simp [State.refusalCauses, Instr.regOperands, Instr.op, hr7, hpc]

/-- An instruction that performs has no cause to be refused. -/
theorem Performed.refusalCauses_eq_nil {s t : State} {i : Instr} (h : Performed s i t) : s.refusalCauses i = [] := by
  obtain ⟨hwf, hcall⟩ := h.wellFormed
  have hregs : (i.regOperands.filter fun w => decide (7 < w.toNat)) = [] := by
    refine List.filter_eq_nil_iff.2 fun w hw => ?_
    have : w.toNat < 8 := of_decide_eq_true (List.all_eq_true.1 hwf w hw)
    simpa using Nat.le_of_lt_succ this
  have hret : ¬ (i.op = .call ∧ s.pc + 2 > 255) := fun ⟨hop, hpc⟩ => absurd (hcall hop) (Nat.not_le.2 hpc)
  simp [State.refusalCauses, hregs, hret]

/-! ## The list of R198 by what a fetch finds -/

theorem State.fatalCauses_of_undefined {s : State} (hpc : s.pc ≤ 255)
    (hop : decodeOpcode s.params (s.wordAhead 0) = none) :
    s.fatalCauses = [.decodeError (s.wordAhead 0) s.pc] := by
  simp [State.fatalCauses, hop, Nat.not_lt.2 hpc]

/-- A defined opcode inside memory: the operand words beyond memory, then the causes of the instruction built from the
words ahead. -/
theorem State.fatalCauses_of_defined {s : State} {o : Op} (hpc : s.pc ≤ 255)
    (hop : decodeOpcode s.params (s.wordAhead 0) = some o) :
    s.fatalCauses =
      causeIf (decide (1 ≤ o.operands ∧ s.pc + 1 > 255)) (.outOfBounds .mem (s.pc + 1) s.pc) ++
      causeIf (decide (o.operands = 2 ∧ s.pc + 2 > 255)) (.outOfBounds .mem (s.pc + 2) s.pc) ++
      s.refusalCauses (o.instr (s.wordAhead 1) (s.wordAhead 2)) := by
  have hregs : (((o.instr (s.wordAhead 1) (s.wordAhead 2)).regOperands.filter fun w => decide (7 < w.toNat)).map
        fun w => Cause.outOfBounds .reg w.toNat s.pc) =
      causeIf (decide (o.format ≠ .z ∧ (s.wordAhead 1).toNat > 7)) (.outOfBounds .reg (s.wordAhead 1).toNat s.pc) ++
      causeIf (decide (o.format = .rr ∧ (s.wordAhead 2).toNat > 7)) (.outOfBounds .reg (s.wordAhead 2).toNat s.pc) := by
    rw [Op.instr_regOperands, List.filter_append, List.map_append]
    cases o.format <;> simp [map_filter_singleton]
  simp [State.fatalCauses, State.refusalCauses, hop, Nat.not_lt.2 hpc, hregs]

/-- A fetch raises the first cause of the list. -/
theorem head?_fatalCauses_of_fetch_error {s : State} {c : Cause} (h : s.fetch = .error c) :
    s.fatalCauses.head? = some c := by
  obtain ⟨hpc, hf⟩ | ⟨hpc, hop, hf⟩ | ⟨o, hpc, hop, ⟨hone, h255, hf⟩ | ⟨htwo, h254, hf⟩ | ⟨-, hf⟩⟩ := fetch_cases s <;>
    rw [hf] at h <;> cases h
  · simp [State.fatalCauses, hpc]
  · rw [State.fatalCauses_of_undefined hpc hop]
    rfl
  · simp [State.fatalCauses_of_defined hpc hop, hone, h255]
  · simp [State.fatalCauses_of_defined hpc hop, htwo, h254]

/-- After a fetch that raises nothing, only the causes of the fetched instruction are left. -/
theorem fatalCauses_of_fetch {s : State} {i : Instr} (h : s.fetch = .ok i) :
    s.fatalCauses = s.refusalCauses i := by
  obtain ⟨-, hf⟩ | ⟨-, -, hf⟩ | ⟨o, hpc, hop, ⟨-, -, hf⟩ | ⟨-, -, hf⟩ | ⟨hin, hf⟩⟩ := fetch_cases s <;>
    rw [hf] at h <;> cases h
  have hone : ¬ (1 ≤ o.operands ∧ s.pc + 1 > 255) := by omega
  have htwo : ¬ (o.operands = 2 ∧ s.pc + 2 > 255) := by omega
  rw [State.fatalCauses_of_defined hpc hop, decide_eq_false hone, decide_eq_false htwo]
  rfl

end Sys2Proof.Machine

namespace Sys2Proof.Proofs.Exceptions

open Sys2Proof.Machine

/-- Settles O15: a fetch raises the first cause of the list; after a fetch the list is that of the instruction, which
is refused for the first cause there is and otherwise performs. -/
theorem firstFatalCauseIsReported : Obligations.FirstFatalCauseIsReported := by
  intro s hrun
  cases hf : s.fetch with
  | error c =>
    rw [head?_fatalCauses_of_fetch_error hf]
    exact step_of_fetch_error hrun hf
  | ok i =>
    rw [fatalCauses_of_fetch hf, step_of_fetch hrun hf]
    obtain ⟨t, hexec, hp⟩ | ⟨c, hexec, hr⟩ := exec_cases i s
    · rw [hp.refusalCauses_eq_nil]
      exact ⟨t, hexec, hp.not_crashed hrun⟩
    · rw [hr.head?_refusalCauses]
      exact hexec

/-- Settles O16, from `step_inv`: what performs has not crashed, and what does not took one condition that names pc. -/
theorem fatalStepChangesOnlyRunAndOutput : Obligations.FatalStepChangesOnlyRunAndOutput := by
  intro s t c h hfatal
  obtain ⟨hrun, ⟨i, -, hp⟩ | ⟨c', rfl, hc⟩⟩ := step_inv h
  · exact (hp.not_crashed hrun ⟨c, hfatal⟩).elim
  · obtain rfl : c' = c := RunState.fatal.inj hfatal
    exact ⟨s.raise_eq c', hc⟩

/-- Settles O45: the case of POP that finds the stack empty, `emit` then `advance 2`. -/
theorem emptyStackPopOnlyReports : Obligations.EmptyStackPopOnlyReports :=
  fun _ r h hs => (Performed.popEmpty r ⟨r.toNat, h⟩ rfl hs).exec_eq

end Sys2Proof.Proofs.Exceptions
end

section
/-! PROOF. The load (70_reset_and_hazards.md R222, R223): the state it ends in is the one it starts from with the image's
words placed in memory, and, when they do not fit, with the condition of the first write beyond memory taken. -/

namespace Sys2Proof.Machine

/-! ## The words placed from an address on -/

theorem Memory.place_cons (m : Memory) {k : Nat} (w : Word) (ws : List Word) (h : k < 256) :
    Memory.place m k (w :: ws) = Memory.place (Memory.write m k w) (k + 1) ws := by
  rw [Memory.place, Config.memSize_eq, if_pos h]

/-- From an address beyond memory on, nothing is placed. -/
theorem Memory.place_beyond (m : Memory) {k : Nat} (ws : List Word) (h : 256 ≤ k) : Memory.place m k ws = m := by
  induction ws generalizing k with
  | nil => rfl
  | cons w ws ih => rw [Memory.place, Config.memSize_eq, if_neg (Nat.not_lt.2 h), ih (h.trans k.le_succ)]

/-- Addresses below the first one placed read as before. -/
theorem Memory.read_place_below (m : Memory) {a k : Nat} (ws : List Word) (h : a < k) :
    Memory.read (Memory.place m k ws) a = Memory.read m a := by
  induction ws generalizing m k with
  | nil => rfl
  | cons w ws ih =>
    have hk : a < k + 1 := h.trans k.lt_succ_self
    rw [Memory.place]
    split
    case isTrue => rw [ih _ hk, Memory.read_write_other m w h.ne]
    case isFalse => exact ih m hk

/-- An address inside memory reads as the word placed there, and as before after the last one. -/
theorem Memory.read_place {m : Memory} (hm : Memory.wf m) (k : Nat) (ws : List Word) {j : Nat} (h : k + j < 256) :
    Memory.read (Memory.place m k ws) (k + j) = (ws[j]?).getD (Memory.read m (k + j)) := by
  induction ws generalizing m k j with
  | nil => rfl
  | cons w ws ih =>
    have hk : k < 256 := by omega
    rw [Memory.place_cons m w ws hk]
    cases j with
    | zero => exact (Memory.read_place_below _ ws k.lt_succ_self).trans (Memory.read_write_same hm k w)
    | succ j =>
      have hj : k + (j + 1) = k + 1 + j := by omega
      have hne : k + 1 + j ≠ k := by omega
      rw [hj, ih (Memory.write_wf hm w hk) (k + 1) (hj ▸ h), Memory.read_write_other m w hne, List.getElem?_cons_succ]

/-! ## The state after the load -/

/-- Words that fit are placed, and nothing else happens. -/
theorem State.loadFrom_of_le {k : Nat} {ws : List Word} (s : State) (h : k + ws.length ≤ 256) :
    State.loadFrom k ws s = { s with mem := Memory.place s.mem k ws } := by
  induction ws generalizing k s with
  | nil => rfl
  | cons w ws ih =>
    rw [List.length_cons] at h
    have hk : k < 256 := by omega
    rw [State.loadFrom_cons, if_pos hk, Memory.place_cons s.mem w ws hk]
    exact ih (s.store k w) (by omega)

/-- Of words that do not fit, those that do are placed and the write to address 256 is the fatal condition. -/
theorem State.loadFrom_of_gt {k : Nat} {ws : List Word} (s : State) (hk : k ≤ 256) (h : 256 < k + ws.length) :
    State.loadFrom k ws s =
      State.raise { s with mem := Memory.place s.mem k ws } (.outOfBounds .mem 256 s.pc) := by
  induction ws generalizing k s with
  | nil => exact absurd hk (Nat.not_le.2 h)
  | cons w ws ih =>
    rw [List.length_cons] at h
    rw [State.loadFrom_cons]
    obtain hlt | rfl := hk.lt_or_eq
    · rw [if_pos hlt, Memory.place_cons s.mem w ws hlt]
      exact ih (s.store k w) hlt (by omega)
    · rw [if_neg (lt_irrefl 256), Memory.place_beyond s.mem (w :: ws) le_rfl]

theorem State.load_of_le {image : List Word} (s : State) (h : image.length ≤ 256) :
    s.load image = { s with mem := Memory.place s.mem 0 image } :=
  s.loadFrom_of_le ((Nat.zero_add _).trans_le h)

theorem State.load_of_gt {image : List Word} (s : State) (h : 256 < image.length) :
    s.load image = State.raise { s with mem := Memory.place s.mem 0 image } (.outOfBounds .mem 256 s.pc) :=
  s.loadFrom_of_gt (Nat.zero_le 256) (h.trans_eq (Nat.zero_add _).symm)

/-- An image placed from address 0 on, read at an address inside memory. -/
theorem Memory.read_place_zero {m : Memory} (hm : Memory.wf m) (image : List Word) {a : Nat} (h : a < 256) :
    Memory.read (Memory.place m 0 image) a = (image[a]?).getD (Memory.read m a) := by
  have := Memory.read_place hm 0 image (j := a) ((Nat.zero_add a).trans_lt h)
  rwa [Nat.zero_add] at this

end Sys2Proof.Machine

namespace Sys2Proof.Proofs.Reset

open Sys2Proof.Machine

/-- Settles O24: the image fits, so the load places it (`State.load_of_le`) and no other field moves; an address beyond
memory has no image word and reads as unlisted before and after. -/
theorem loadWritesTheImageOnly : Obligations.LoadWritesTheImageOnly := by
  intro image s hm hlen
  rw [s.load_of_le hlen]
  refine ⟨fun a => ?_, rfl, rfl, rfl, rfl, rfl⟩
  obtain ha | ha := Nat.lt_or_ge a 256
  · exact Memory.read_place_zero hm image ha
  · have hnone : image[a]? = none := List.getElem?_eq_none (hlen.trans ha)
    rw [hnone]
    exact (Memory.read_beyond (Memory.place_wf hm 0 image) ha).trans (Memory.read_beyond hm ha).symm

/-- Settles O25: the load into the reset state takes the condition with the image placed (`State.load_of_gt`), and a
condition leaves memory. -/
theorem oversizeImageIsFatalAtLoad : Obligations.OversizeImageIsFatalAtLoad := by
  intro image hlen
  rw [State.launch, State.load_of_gt _ hlen]
  refine ⟨rfl, fun a w ha hw => ?_⟩
  have hread := Memory.read_place_zero Memory.wf_nil image ha
  rwa [hw] at hread

end Sys2Proof.Proofs.Reset
end

section
/-! PROOF. The exit status the host observes (80_interfaces.md R247). -/

namespace Sys2Proof.Machine

@[simp] theorem RunState.exitStatus_running : RunState.running.exitStatus = none := rfl

@[simp] theorem RunState.exitStatus_halted : RunState.halted.exitStatus = some 0 := rfl

/-- After a fatal stop there is a status, and whatever its free value it is not 0. -/
theorem RunState.exitStatus_fatal (c : Cause) : ∃ n, n ≠ 0 ∧ (RunState.fatal c).exitStatus = some n :=
  ⟨_, Nat.succ_ne_zero _, rfl⟩

end Sys2Proof.Machine

namespace Sys2Proof.Proofs.Interfaces

open Sys2Proof.Machine

/-- Settles O56, by the run state: only Halted gives 0 and only Running gives none. -/
theorem exitStatusIsZeroExactlyAfterHalt : Obligations.ExitStatusIsZeroExactlyAfterHalt := by
  intro r
  cases r with
  | running => simp
  | halted => simp
  | fatal c =>
    obtain ⟨n, hn, hstatus⟩ := RunState.exitStatus_fatal c
    simp [hstatus, hn]

end Sys2Proof.Proofs.Interfaces
end
